-- ==== Sys2Proof/Word.lean ====
section
/-! DEFINITION. The words of the machine: a byte, a 16-bit word, the index of a general register, a key code
(spec/00_scope.md R4 to R6). -/

namespace Sys2Proof

/-- The width of a general register, a memory cell and a timer (R4 `XLEN`, R16, R17, R40). -/
abbrev Byte := BitVec 8

/-- The width of `I`, `PC`, a stack entry and an instruction word (R4 `ILEN`, `PCLEN`, `ILEN_BITS`). -/
abbrev Word := BitVec 16

/-- A register index, the value of a field `x` or `y` (R10, R61), and the content of `KREG` (R21). -/
abbrev RegIdx := Fin 16

/-- A key code, 0 to 15 (R27, R34). -/
abbrev Key := Fin 16

/-- The index of the flag register `VF`, which is an ordinary register (R11). -/
abbrev VF : RegIdx := 15

end Sys2Proof
end

