-- ==== Sys2Proof/Machine/Flags.lean ====
section
/-! DEFINITION. The values written to `VF` by the six flag-writing instructions: 0 or 1, from the operands as they
were (spec/10_state.md R11). -/

namespace Sys2Proof
namespace Machine

/-- The full byte 0x00 or 0x01 (R120). -/
def flagByte (c : Bool) : Byte := if c then 1 else 0

/-- `8xy4`: carry out of bit 7 (R127). -/
def carryFlag (vx vy : Byte) : Byte := flagByte (decide (255 < vx.toNat + vy.toNat))

/-- `8xy5` on (vx, vy) and `8xy7` on (vy, vx): strictly greater (R128, R130). -/
def greaterFlag (a b : Byte) : Byte := flagByte (decide (b.toNat < a.toNat))

/-- `8xy6`: bit 0 of the old value (R129). -/
def lowBitFlag (vx : Byte) : Byte := flagByte (vx.getLsbD 0)

/-- `8xyE`: bit 7 of the old value (R131). -/
def highBitFlag (vx : Byte) : Byte := flagByte (vx.getLsbD 7)

/-- `Dxyn`: some pixel went from 1 to 0 (R164). -/
def collisionFlag (hit : Bool) : Byte := flagByte hit

end Machine
end Sys2Proof
end

