-- ==== Sys2Proof/Syntax.lean ====
section
/-! DEFINITION. The 34 instructions, one constructor per row of spec/opcode_table.json, with the operands of the
row's pattern (spec/30_encoding.md R61, R62, R65, R68). A register index is a Fin 16 and an immediate byte a Byte, for
which every value is legal (R63). An address `nnn` and a row count `n` are natural numbers (R40, R61), whose ranges
Instr.wf checks. -/

namespace Sys2Proof

/-- The instructions, in the order of the opcode map R68. -/
inductive Instr where
  /-- `00E0`, clear the display (R163). -/
  | cls
  /-- `00EE`, return from subroutine (R101). -/
  | ret
  /-- `1nnn`, jump (R102). -/
  | jp (nnn : Nat)
  /-- `2nnn`, call subroutine (R103). -/
  | call (nnn : Nat)
  /-- `3xkk`, skip if register equals byte (R104). -/
  | seImm (x : RegIdx) (kk : Byte)
  /-- `4xkk`, skip if register differs from byte (R105). -/
  | sneImm (x : RegIdx) (kk : Byte)
  /-- `5xy0`, skip if registers are equal (R106). -/
  | seReg (x y : RegIdx)
  /-- `6xkk`, load immediate (R121). -/
  | ldImm (x : RegIdx) (kk : Byte)
  /-- `7xkk`, add immediate, no flag (R122). -/
  | addImm (x : RegIdx) (kk : Byte)
  /-- `8xy0`, copy register (R123). -/
  | ldReg (x y : RegIdx)
  /-- `8xy1`, bitwise OR (R124). -/
  | orReg (x y : RegIdx)
  /-- `8xy2`, bitwise AND (R125). -/
  | andReg (x y : RegIdx)
  /-- `8xy3`, bitwise exclusive OR (R126). -/
  | xorReg (x y : RegIdx)
  /-- `8xy4`, add with carry out (R127). -/
  | addReg (x y : RegIdx)
  /-- `8xy5`, subtract (R128). -/
  | sub (x y : RegIdx)
  /-- `8xy6`, shift right by one; `y` is decoded and ignored (R67, R129). -/
  | shr (x y : RegIdx)
  /-- `8xy7`, reverse subtract (R130). -/
  | subn (x y : RegIdx)
  /-- `8xyE`, shift left by one; `y` is decoded and ignored (R67, R131). -/
  | shl (x y : RegIdx)
  /-- `9xy0`, skip if registers differ (R107). -/
  | sneReg (x y : RegIdx)
  /-- `Annn`, set index (R141). -/
  | ldI (nnn : Nat)
  /-- `Bnnn`, jump with offset `V0` (R108). -/
  | jpV0 (nnn : Nat)
  /-- `Cxkk`, masked random byte (R132). -/
  | rnd (x : RegIdx) (kk : Byte)
  /-- `Dxyn`, draw sprite (R164, R165). -/
  | drw (x y : RegIdx) (n : Nat)
  /-- `Ex9E`, skip if key is pressed (R180). -/
  | skp (x : RegIdx)
  /-- `ExA1`, skip if key is not pressed (R181). -/
  | sknp (x : RegIdx)
  /-- `Fx07`, read the delay timer (R185). -/
  | ldVxDt (x : RegIdx)
  /-- `Fx0A`, wait for a key press (R182). -/
  | ldVxK (x : RegIdx)
  /-- `Fx15`, write the delay timer (R186). -/
  | ldDtVx (x : RegIdx)
  /-- `Fx18`, write the sound timer (R187). -/
  | ldStVx (x : RegIdx)
  /-- `Fx1E`, add register to index (R142). -/
  | addI (x : RegIdx)
  /-- `Fx29`, address of font glyph (R143). -/
  | ldF (x : RegIdx)
  /-- `Fx33`, store binary-coded decimal (R144). -/
  | ldB (x : RegIdx)
  /-- `Fx55`, store registers `V0` to `Vx` (R145). -/
  | stRegs (x : RegIdx)
  /-- `Fx65`, load registers `V0` to `Vx` (R146). -/
  | ldRegs (x : RegIdx)
  deriving DecidableEq, Repr

end Sys2Proof
end

