-- ==== Sys2Proof/Config.lean ====
section
/-! DEFINITION. The parameters of the block (spec/00_scope.md R4) and the two free inputs, which the spec puts
under no law (spec/10_state.md R27, R28). The values taken for the two OPEN parameters stand in
Sys2Proof/Machine/Params.lean. -/

namespace Sys2Proof
namespace Config

/-- R4 `MEM_SIZE`: bytes of memory. -/
abbrev memSize : Nat := 4096

/-- R4 `ADDR_MAX`: highest legal byte address. -/
abbrev addrMax : Nat := 0xFFF

/-- R4 `FONT_LEN`: bytes of font, from address 0 (`FONT_BASE`). -/
abbrev fontLen : Nat := 80

/-- R4 `GLYPH_LEN`: bytes per glyph. -/
abbrev glyphLen : Nat := 5

/-- R4 `PROG_BASE`: load address and entry point. -/
abbrev progBase : Nat := 0x200

/-- R4 `PROG_MAX`: largest program, in bytes. -/
abbrev progMax : Nat := 3584

/-- R4 `FB_COLS`: framebuffer width in pixels. -/
abbrev fbCols : Nat := 64

/-- R4 `FB_ROWS`: framebuffer height in pixels. -/
abbrev fbRows : Nat := 32

/-- R4 `SPRITE_W`: sprite width in pixels. -/
abbrev spriteWidth : Nat := 8

/-- The parameters R4 marks `OPEN` and decided. -/
structure Params where
  /-- `STACK_MAX`, the capacity of the call stack; `none` is the value `unbounded` (R4, R15). -/
  stackMax : Option Nat
  /-- `FONT`, the 80 font bytes (R4, R46). -/
  font : List Byte
  deriving DecidableEq, Repr

/-- What the spec asks of the parameters: a positive capacity (D5), 80 font bytes (R4), and the one byte of the
font the source gives, `FONT[0] = 0xF0` (R46). -/
abbrev Params.legal (p : Params) : Prop :=
  p.stackMax ≠ some 0 ∧ p.font.length = fontLen ∧ p.font[0]? = some 0xF0

/-- The free input `RND`: the n-th draw that the host has not laid out in `State.rndIn`. Under no law (R28). -/
opaque freeRnd : Nat → BitVec 8

/-- The free input `KEYS`: the n-th sample of the 16 key levels that the host has not laid out in
`State.keysIn`; the level of key k stands at index k. Under no law (R27). -/
opaque freeKeys : Nat → Vector Bool 16

end Config
end Sys2Proof
end

