-- ==== Sys2Proof/Machine/State.lean ====
section
/-! DEFINITION. The state of the machine as plain data: everything spec/10_state.md R10 to R22 gives the block, and
beside it the host's side of the interface (R26 to R28), which is no state of the block. -/

namespace Sys2Proof
namespace Machine

/-- Why a step could stop outside the machine: nothing. Every fault the spec names is a state the machine goes to
(`RUN = HALTED` with the `FAULT` record, R206), so no constructor is needed, and none raises one (log 5). -/
inductive Fault where
  deriving DecidableEq, Repr

/-- Why an instruction has no meaning. -/
inductive Refusal where
  /-- An arm of `exec` that has no meaning yet would raise it (safe: the model stops). No arm does (log 5). -/
  | notModelled (mnemonic : String)
  deriving DecidableEq, Repr

/-- The run state `RUN` (R20). -/
inductive RunState where
  /-- `RUNNING`: a `Cycle` executes one instruction -/
  | running
  /-- `AWAITING_KEY`: entered by `Fx0A`, left by `KeyPress` -/
  | awaitingKey
  /-- `HALTED`: a fatal fault has been raised -/
  | halted
  deriving DecidableEq, Repr

/-- The five faults of the engine (R200). -/
inductive FaultCode where
  /-- code 1: the fetched word matches no row of the opcode table (R201) -/
  | decodeFault
  /-- code 2: `00EE` with an empty stack (R202) -/
  | stackUnderflow
  /-- code 3: `2nnn` with a full stack (R203) -/
  | stackOverflow
  /-- code 4: a fetch or data access above 0xFFF (R204) -/
  | addressFault
  /-- code 5: `Ex9E` or `ExA1` with `V[x] > 0x0F` (R205) -/
  | keyIndexFault
  deriving DecidableEq, Repr

/-- The `FAULT` record `(code, pc, word, info)` (R22, R207). -/
structure FaultRecord where
  code : FaultCode
  /-- the address of the faulting instruction -/
  pc : Word
  /-- the instruction word, or `none` for a fetch `AddressFault` -/
  word : Option Word
  /-- as R200 says: the word, 0, the highest address of the access (up to 17 bits), or `V[x]` -/
  info : Nat
  deriving DecidableEq, Repr

/-- What `Load` answers its caller (R222, R233, R234). -/
inductive LoadResult where
  | ok
  | loadError
  deriving DecidableEq, Repr

/-- The host operations (R26). -/
inductive HostOp where
  | reset
  | load (rom : List Byte)
  | cycle
  | tick
  | keyPress (k : Key)
  deriving DecidableEq, Repr

/-- `MEM`, as the list of the (address, byte) pairs that differ from the reset contents, addresses rising (R18, R40;
the canonical form is Memory.wf in Sys2Proof/Machine/Memory.lean). -/
abbrev Memory := List Host.Cell

/-- `FB`: 32 rows, top first, of 64 pixels, left first; true is "on" (R19). -/
abbrev Framebuffer := Vector (Vector Bool 64) 32

/-- The 16 levels `KEYS[0..15]`; true is "held down" (R27). -/
abbrev Keypad := Vector Bool 16

/-- The state. The fields from `schedule` on are the model's own: the host's side of the interface. -/
structure State where
  /-- `V[0..15]` (R10), `VF` among them (R11) -/
  v : Vector Byte 16
  /-- `I` (R14) -/
  i : Word
  /-- `PC` (R12) -/
  pc : Word
  /-- `STACK`, the entry pushed last at the end; `SP` is its length (R15) -/
  stack : List Word
  /-- `DT` (R16) -/
  dt : Byte
  /-- `ST` (R17) -/
  st : Byte
  /-- `MEM` (R18) -/
  mem : Memory
  /-- `FB` (R19) -/
  fb : Framebuffer
  /-- `RUN` (R20) -/
  run : RunState
  /-- `KREG` (R21) -/
  kreg : RegIdx
  /-- `FAULT` (R22) -/
  fault : Option FaultRecord
  /-- MODEL'S OWN: the host operations still to come, oldest first; where empty the next one is `Cycle` (R26, log 3) -/
  schedule : List HostOp
  /-- MODEL'S OWN: what the host was answered by its latest `Load` (R222, log 4) -/
  loadResult : Option LoadResult
  /-- MODEL'S OWN: samples of `KEYS` the host has laid out, oldest first (R27, log 2) -/
  keysIn : List Keypad
  /-- MODEL'S OWN: how many samples of `KEYS` have been taken (R27, log 2) -/
  keysTaken : Nat
  /-- MODEL'S OWN: draws of `RND` the host has laid out, oldest first (R28, log 1) -/
  rndIn : List Byte
  /-- MODEL'S OWN: how many draws of `RND` have been taken (R28, log 1) -/
  rndTaken : Nat
  deriving DecidableEq, Repr

/-- The machine right after `Reset` (R25, R230, R231); the model's own fields are empty (log 7). -/
def State.reset : State where
  v := Vector.replicate 16 0
  i := 0
  pc := 0x200
  stack := []
  dt := 0
  st := 0
  mem := []
  fb := Vector.replicate 32 (Vector.replicate 64 false)
  run := .running
  kreg := 0
  fault := none
  schedule := []
  loadResult := none
  keysIn := []
  keysTaken := 0
  rndIn := []
  rndTaken := 0

end Machine
end Sys2Proof
end

