-- ==== Sys2Proof/Machine/Memory.lean ====
section
/-! DEFINITION. The memory: what an unlisted address reads as, the canonical form, and the access primitives
(spec/20_memory.md R40 to R45). -/

namespace Sys2Proof
namespace Machine

/-- What an address nothing has written reads as: the reset contents, the font at 0x000 to 0x04F and 0 above
(R45, R231). -/
def Memory.base (a : Nat) : Byte := if a < Config.fontLen then params.font.getD a 0 else 0

/-- The byte at an address. -/
def Memory.read : Memory → Nat → Byte
  | [], a => Memory.base a
  | (a', b) :: m, a => if a' = a then b else Memory.read m a

/-- The memory without an entry for an address. -/
def Memory.erase (m : Memory) (a : Nat) : Memory := m.filter fun c => c.1 != a

/-- A new entry in its place among rising addresses. -/
def Memory.insert : Memory → Nat → Byte → Memory
  | [], a, b => [(a, b)]
  | c :: m, a, b => if a < c.1 then (a, b) :: c :: m else c :: Memory.insert m a b

/-- A byte is written; writing what an unlisted address reads as leaves no entry. -/
def Memory.write (m : Memory) (a : Nat) (b : Byte) : Memory :=
  if b = Memory.base a then m.erase a else (m.erase a).insert a b

/-- The canonical form: addresses strictly rising, each at most 0xFFF (R40), and no entry equal to what its address
reads as unlisted. -/
abbrev Memory.wf (m : Memory) : Prop :=
  m.Pairwise (fun c d => c.1 < d.1) ∧ ∀ c ∈ m, c.1 ≤ Config.addrMax ∧ c.2 ≠ Memory.base c.1

/-- `MemRead(addr, n)`: the n bytes from addr on, lowest address first (R41). -/
def memRead (m : Memory) (addr : Nat) : Nat → List Byte
  | 0 => []
  | n + 1 => m.read addr :: memRead m (addr + 1) n

/-- `MemWrite(addr, n, v)`: the bytes of v to addr and on, lowest address first (R41). -/
def memWrite (m : Memory) (addr : Nat) : List Byte → Memory
  | [] => m
  | b :: bs => memWrite (m.write addr b) (addr + 1) bs

/-- The range check of an access to the n bytes from addr on: the highest address where that is above 0xFFF, the
info of an `AddressFault`; none where the access is legal, and always for n = 0 (R41, R42, R84). -/
def accessFault (addr n : Nat) : Option Nat :=
  if 1 ≤ n ∧ Config.addrMax < addr + n - 1 then some (addr + n - 1) else none

/-- The instruction word at an address: the byte at the lower address is the more significant (R48). -/
def fetchWord (m : Memory) (a : Nat) : Word := wordOfBytes (m.read a) (m.read (a + 1))

end Machine
end Sys2Proof
end

