-- ==== Sys2Proof/Machine/Operands.lean ====
section
/-! DEFINITION. Operand forms: general registers, the index register's effective address, the next instruction's
address, and the sampled inputs (spec/10_state.md R10, R27, R28; spec/20_memory.md R43; spec/40_cycle.md R82). -/

namespace Sys2Proof
namespace Machine

/-- `V[r]` (R7, R10). -/
def State.reg (s : State) (r : RegIdx) : Byte := s.v[r.val]

/-- `V[r] <- b` (R7, R10). -/
def State.setReg (s : State) (r : RegIdx) (b : Byte) : State := { s with v := s.v.set r.val b }

/-- `EA(k) = I + k`, a natural number, neither wrapped nor masked (R43, R140). -/
def State.ea (s : State) (k : Nat) : Nat := s.i.toNat + k

/-- `npc`, the address of the current instruction plus 2 (R82). -/
def State.npc (s : State) : Nat := s.pc.toNat + 2

/-- `PC <- t`: the 16-bit register receives a natural number (R12). -/
def State.setPc (s : State) (t : Nat) : State := { s with pc := BitVec.ofNat 16 t }

/-- The default advance, `PC <- npc` (R82, R85). -/
def State.advance (s : State) : State := s.setPc s.npc

/-- "Skip next instr" where c holds, else the default advance (R89). -/
def State.skipIf (s : State) (c : Bool) : State := s.setPc (if c then s.npc + 2 else s.npc)

/-- `I <- t`, modulo 65536 (R14, R142). -/
def State.setI (s : State) (t : Nat) : State := { s with i := BitVec.ofNat 16 t }

/-- The registers `V[0]` to `V[x]`, in order (R145). -/
def State.regsUpTo (s : State) (x : RegIdx) : List Byte := s.v.toList.take (x.val + 1)

/-- Successive registers from index k on receive the bytes of a list (R146). -/
def setRegsFrom (v : Vector Byte 16) (k : Nat) : List Byte → Vector Byte 16
  | [] => v
  | b :: bs => setRegsFrom (v.setIfInBounds k b) (k + 1) bs

/-- The next sample of `KEYS`: what the host has laid out, else the free value (R27). -/
def State.keys (s : State) : Keypad :=
  match s.keysIn with
  | ks :: _ => ks
  | [] => Config.freeKeys s.keysTaken

/-- A sample of `KEYS` has been taken (R27). -/
def State.takeKeys (s : State) : State := { s with keysIn := s.keysIn.tail, keysTaken := s.keysTaken + 1 }

/-- The next draw of `RND`: what the host has laid out, else the free value (R28). -/
def State.rnd (s : State) : Byte :=
  match s.rndIn with
  | b :: _ => b
  | [] => Config.freeRnd s.rndTaken

/-- A draw of `RND` has been taken (R28). -/
def State.takeRnd (s : State) : State := { s with rndIn := s.rndIn.tail, rndTaken := s.rndTaken + 1 }

end Machine
end Sys2Proof
end

