-- ==== Sys2Proof/Machine/Ops.lean ====
section
/-! DEFINITION. The shared operations: taking a fault, the call stack, the result and flag writes, and the
framebuffer's primitives. There is no return from a fault (spec/60_exceptions.md R212). -/

namespace Sys2Proof
namespace Machine

/-- The answer of a meaning, of the `Cycle` and of `step`. -/
abbrev Result := Host.Outcome State Fault Refusal

/-! ### Taking a fault (R86, R206, R207) -/

/-- `RUN <- HALTED`, `FAULT <- (code, PC, word, info)`, every other piece of state as it was. -/
def takeFault (code : FaultCode) (word : Option Word) (info : Nat) (s : State) : State :=
  { s with run := .halted, fault := some ⟨code, s.pc, word, info⟩ }

/-- The end of an instruction's `Cycle`: the fault of the check phase if there is one (R84, R86), else the commit
(R85). The word recorded is the instruction's own. -/
def commitUnless (c : Option (FaultCode × Nat)) (i : Instr) (s commit : State) : Result :=
  match c with
  | some (code, info) => .next (takeFault code (some (encode i)) info s)
  | none => .next commit

/-- The number of a fault (R200). -/
def FaultCode.number : FaultCode → Nat
  | .decodeFault => 1
  | .stackUnderflow => 2
  | .stackOverflow => 3
  | .addressFault => 4
  | .keyIndexFault => 5

/-! ### The conditions of the check phase (R84) -/

/-- A data access of n bytes at `I` (R42, R84). -/
def accessCheck (s : State) (n : Nat) : Option (FaultCode × Nat) :=
  (accessFault (s.ea 0) n).map fun a => (.addressFault, a)

/-- `00EE`: `SP = 0` (R101). -/
def underflowCheck (s : State) : Option (FaultCode × Nat) :=
  if s.stack.length = 0 then some (.stackUnderflow, 0) else none

/-- Is a stack of sp entries full, for a capacity or for `unbounded` (R15)? -/
def stackFull (capacity : Option Nat) (sp : Nat) : Bool :=
  match capacity with
  | some n => decide (n ≤ sp)
  | none => false

/-- `2nnn`: `SP = STACK_MAX` (R103). -/
def overflowCheck (s : State) : Option (FaultCode × Nat) :=
  if stackFull params.stackMax s.stack.length then some (.stackOverflow, 0) else none

/-- `Ex9E`, `ExA1`: `V[x] > 0x0F` (R180). -/
def keyCheck (s : State) (x : RegIdx) : Option (FaultCode × Nat) :=
  if 0x0F < (s.reg x).toNat then some (.keyIndexFault, (s.reg x).toNat) else none

/-! ### The call stack (R15) -/

/-- `push(v)`: v at the end. -/
def State.push (s : State) (t : Word) : State := { s with stack := s.stack ++ [t] }

/-- The entry `pop()` returns: the last one. -/
def State.top (s : State) : Word := s.stack.getLastD 0

/-- `pop()` removes the last entry. -/
def State.pop (s : State) : State := { s with stack := s.stack.dropLast }

/-! ### Result and flag (R120) -/

/-- `V[x] <- r`, then `V[F] <- f`. -/
def State.setResultAndFlag (s : State) (x : RegIdx) (r f : Byte) : State := (s.setReg x r).setReg VF f

/-! ### The keypad (R27) -/

/-- `KEYS[V[x]]` of this sample; read only where `V[x]` is a key code. -/
def State.keyDown (s : State) (x : RegIdx) : Bool := s.keys[(s.reg x).toNat]?.getD false

/-! ### The framebuffer (R160 to R164) -/

/-- `FB[x, y]`. -/
def Framebuffer.pixel (fb : Framebuffer) (cx : Fin 64) (cy : Fin 32) : Bool := fb[cy.val][cx.val]

/-- `FB[x, y] <- p`. -/
def Framebuffer.setPixel (fb : Framebuffer) (cx : Fin 64) (cy : Fin 32) (p : Bool) : Framebuffer :=
  fb.set cy.val (fb[cy.val].set cx.val p)

/-- A column coordinate wraps modulo 64 (R162). -/
def wrapCol (px : Nat) : Fin 64 := ⟨px % 64, Nat.mod_lt _ (by decide)⟩

/-- A row coordinate wraps modulo 32 (R162). -/
def wrapRow (py : Nat) : Fin 32 := ⟨py % 32, Nat.mod_lt _ (by decide)⟩

/-- `clear()`: every pixel 0 (R161). -/
def Framebuffer.blank : Framebuffer := Vector.replicate 32 (Vector.replicate 64 false)

/-- `togglePixel(px, py, bit)` on a framebuffer and the collisions so far (R162). -/
def togglePixel (px py : Nat) (bit : Bool) (acc : Framebuffer × Bool) : Framebuffer × Bool :=
  (acc.1.setPixel (wrapCol px) (wrapRow py) (acc.1.pixel (wrapCol px) (wrapRow py) ^^ bit),
    acc.2 || (acc.1.pixel (wrapCol px) (wrapRow py) && bit))

/-- The columns from c on of one sprite row, count of them: bit 7 - c of the byte at (ox + c, py) (R164). -/
def drawBits (ox py : Nat) (b : Byte) (c : Nat) : Nat → Framebuffer × Bool → Framebuffer × Bool
  | 0, acc => acc
  | count + 1, acc => drawBits ox py b (c + 1) count (togglePixel (ox + c) py (b.getLsbD (7 - c)) acc)

/-- The rows of a sprite, the first at row py, each of 8 columns, most significant bit first (R164). -/
def drawRows (ox py : Nat) : List Byte → Framebuffer × Bool → Framebuffer × Bool
  | [], acc => acc
  | b :: bs, acc => drawRows ox (py + 1) bs (drawBits ox py b 0 Config.spriteWidth acc)

/-- The sprite of a `Dxyn`: n rows from `I`, at (`V[x]`, `V[y]`); the new framebuffer and whether any pixel went from
1 to 0 (R164). -/
def State.drawn (s : State) (x y : RegIdx) (n : Nat) : Framebuffer × Bool :=
  drawRows (s.reg x).toNat (s.reg y).toNat (memRead s.mem (s.ea 0) n) (s.fb, false)

end Machine
end Sys2Proof
end

