-- ==== Sys2Proof/Machine/Alu.lean ====
section
/-! DEFINITION. Register and ALU instructions: `6xkk 7xkk 8xy0 to 8xy7 8xyE Cxkk` (spec/42_alu.md). Each reads its
operands first, writes the result, then the flag (R120). -/

namespace Sys2Proof
namespace Machine

/-- `6xkk` (R121). -/
def execLdImm (x : RegIdx) (kk : Byte) (s : State) : Result := .next (s.setReg x kk).advance

/-- `7xkk`: modulo 256, no flag (R122). -/
def execAddImm (x : RegIdx) (kk : Byte) (s : State) : Result := .next (s.setReg x (s.reg x + kk)).advance

/-- `8xy0` (R123). -/
def execLdReg (x y : RegIdx) (s : State) : Result := .next (s.setReg x (s.reg y)).advance

/-- `8xy1` (R124). -/
def execOrReg (x y : RegIdx) (s : State) : Result := .next (s.setReg x (s.reg x ||| s.reg y)).advance

/-- `8xy2` (R125). -/
def execAndReg (x y : RegIdx) (s : State) : Result := .next (s.setReg x (s.reg x &&& s.reg y)).advance

/-- `8xy3` (R126). -/
def execXorReg (x y : RegIdx) (s : State) : Result := .next (s.setReg x (s.reg x ^^^ s.reg y)).advance

/-- `8xy4` (R127). -/
def execAddReg (x y : RegIdx) (s : State) : Result :=
  .next (s.setResultAndFlag x (s.reg x + s.reg y) (carryFlag (s.reg x) (s.reg y))).advance

/-- `8xy5` (R128). -/
def execSub (x y : RegIdx) (s : State) : Result :=
  .next (s.setResultAndFlag x (s.reg x - s.reg y) (greaterFlag (s.reg x) (s.reg y))).advance

/-- `8xy6`: `V[x]` itself is shifted, y is ignored (R67, R129). -/
def execShr (x _y : RegIdx) (s : State) : Result :=
  .next (s.setResultAndFlag x (s.reg x >>> 1) (lowBitFlag (s.reg x))).advance

/-- `8xy7` (R130). -/
def execSubn (x y : RegIdx) (s : State) : Result :=
  .next (s.setResultAndFlag x (s.reg y - s.reg x) (greaterFlag (s.reg y) (s.reg x))).advance

/-- `8xyE`: `V[x]` itself is shifted, y is ignored (R67, R131). -/
def execShl (x _y : RegIdx) (s : State) : Result :=
  .next (s.setResultAndFlag x (s.reg x <<< 1) (highBitFlag (s.reg x))).advance

/-- `Cxkk`: one draw of `RND`, masked (R132). -/
def execRnd (x : RegIdx) (kk : Byte) (s : State) : Result := .next (s.takeRnd.setReg x (s.rnd &&& kk)).advance

end Machine
end Sys2Proof
end

