-- ==== Sys2Proof/Machine/Control.lean ====
section
/-! DEFINITION. Control transfer: `00EE 1nnn 2nnn 3xkk 4xkk 5xy0 9xy0 Bnnn` (spec/41_control_flow.md). -/

namespace Sys2Proof
namespace Machine

/-- `00EE` (R101). -/
def execRet (s : State) : Result := commitUnless (underflowCheck s) .ret s (s.pop.setPc s.top.toNat)

/-- `1nnn` (R102). -/
def execJp (nnn : Nat) (s : State) : Result := .next (s.setPc nnn)

/-- `2nnn` (R103). -/
def execCall (nnn : Nat) (s : State) : Result :=
  commitUnless (overflowCheck s) (.call nnn) s ((s.push (BitVec.ofNat 16 s.npc)).setPc nnn)

/-- `3xkk` (R104). -/
def execSeImm (x : RegIdx) (kk : Byte) (s : State) : Result := .next (s.skipIf (decide (s.reg x = kk)))

/-- `4xkk` (R105). -/
def execSneImm (x : RegIdx) (kk : Byte) (s : State) : Result := .next (s.skipIf (decide (s.reg x ≠ kk)))

/-- `5xy0` (R106). -/
def execSeReg (x y : RegIdx) (s : State) : Result := .next (s.skipIf (decide (s.reg x = s.reg y)))

/-- `9xy0` (R107). -/
def execSneReg (x y : RegIdx) (s : State) : Result := .next (s.skipIf (decide (s.reg x ≠ s.reg y)))

/-- `Bnnn`: the sum is not reduced to 12 bits (R108). -/
def execJpV0 (nnn : Nat) (s : State) : Result := .next (s.setPc (nnn + (s.reg 0).toNat))

end Machine
end Sys2Proof
end

