-- ==== Sys2Proof/Machine/Display.lean ====
section
/-! DEFINITION. Display instructions: `00E0 Dxyn` (spec/44_display.md). -/

namespace Sys2Proof
namespace Machine

/-- `00E0` (R163). -/
def execCls (s : State) : Result := .next { s with fb := Framebuffer.blank }.advance

/-- `Dxyn`: the sprite is drawn, then `VF` receives the collision flag, once (R164); n = 0 reads nothing and writes 0
(R165). -/
def execDrw (x y : RegIdx) (n : Nat) (s : State) : Result :=
  commitUnless (accessCheck s n) (.drw x y n) s
    (({ s with fb := (s.drawn x y n).1 }.setReg VF (collisionFlag (s.drawn x y n).2)).advance)

end Machine
end Sys2Proof
end

