-- ==== Sys2Proof/Machine/IndexMemory.lean ====
section
/-! DEFINITION. Index register, loads and stores: `Annn Fx1E Fx29 Fx33 Fx55 Fx65` (spec/43_index_memory.md). No load
or store changes `I` (R140). -/

namespace Sys2Proof
namespace Machine

/-- `Annn` (R141). -/
def execLdI (nnn : Nat) (s : State) : Result := .next (s.setI nnn).advance

/-- `Fx1E`: modulo 65536, no flag (R142). -/
def execAddI (x : RegIdx) (s : State) : Result := .next (s.setI (s.i.toNat + (s.reg x).toNat)).advance

/-- `Fx29`: the whole byte times 5 (R143). -/
def execLdF (x : RegIdx) (s : State) : Result := .next (s.setI ((s.reg x).toNat * Config.glyphLen)).advance

/-- The decimal digits of a byte: hundreds, tens, ones (R144). -/
def bcdDigits (b : Byte) : List Byte :=
  [BitVec.ofNat 8 (b.toNat / 100), BitVec.ofNat 8 (b.toNat / 10 % 10), BitVec.ofNat 8 (b.toNat % 10)]

/-- `Fx33` (R144). -/
def execLdB (x : RegIdx) (s : State) : Result :=
  commitUnless (accessCheck s 3) (.ldB x) s
    { s with mem := memWrite s.mem (s.ea 0) (bcdDigits (s.reg x)) }.advance

/-- `Fx55`: x + 1 bytes, `V[k]` at `I + k` (R145). -/
def execStRegs (x : RegIdx) (s : State) : Result :=
  commitUnless (accessCheck s (x.val + 1)) (.stRegs x) s
    { s with mem := memWrite s.mem (s.ea 0) (s.regsUpTo x) }.advance

/-- `Fx65`: `V[k]` from `I + k`, k = 0 to x (R146). -/
def execLdRegs (x : RegIdx) (s : State) : Result :=
  commitUnless (accessCheck s (x.val + 1)) (.ldRegs x) s
    { s with v := setRegsFrom s.v 0 (memRead s.mem (s.ea 0) (x.val + 1)) }.advance

end Machine
end Sys2Proof
end

