-- ==== Sys2Proof/Machine/KeypadTimers.lean ====
section
/-! DEFINITION. Keypad and timer instructions: `Ex9E ExA1 Fx07 Fx0A Fx15 Fx18` (spec/45_keypad_timers.md). -/

namespace Sys2Proof
namespace Machine

/-- `Ex9E`: one sample of `KEYS`; a `KeyIndexFault` samples nothing (R180). -/
def execSkp (x : RegIdx) (s : State) : Result :=
  commitUnless (keyCheck s x) (.skp x) s (s.takeKeys.skipIf (s.keyDown x))

/-- `ExA1` (R181). -/
def execSknp (x : RegIdx) (s : State) : Result :=
  commitUnless (keyCheck s x) (.sknp x) s (s.takeKeys.skipIf (!s.keyDown x))

/-- `Fx07` (R185). -/
def execLdVxDt (x : RegIdx) (s : State) : Result := .next (s.setReg x s.dt).advance

/-- `Fx0A`: the wait begins; no general register is written (R182). -/
def execLdVxK (x : RegIdx) (s : State) : Result := .next { s with kreg := x, run := .awaitingKey }.advance

/-- `Fx15` (R186). -/
def execLdDtVx (x : RegIdx) (s : State) : Result := .next { s with dt := s.reg x }.advance

/-- `Fx18` (R187). -/
def execLdStVx (x : RegIdx) (s : State) : Result := .next { s with st := s.reg x }.advance

end Machine
end Sys2Proof
end

