-- ==== Sys2Proof/Machine/Cycle.lean ====
section
/-! DEFINITION. The host operation `Cycle`: fetch, decode, execute (spec/40_cycle.md R80 to R90). -/

namespace Sys2Proof
namespace Machine

/-- `Cycle` in state `RUNNING`: the fetch with its range check (R81), the decode (R83), and the instruction, which
makes its own check before its commit (R84 to R86). -/
def runCycle (s : State) : Result :=
  match accessFault s.pc.toNat 2 with
  | some a => .next (takeFault .addressFault none a s)
  | none =>
    match decodeWord (fetchWord s.mem s.pc.toNat) with
    | none =>
      .next (takeFault .decodeFault (some (fetchWord s.mem s.pc.toNat)) (fetchWord s.mem s.pc.toNat).toNat s)
    | some i => exec i s

/-- `Cycle` by run state: nothing changes while a key is awaited or after a fault (R80, R208). -/
def cycle (s : State) : Result :=
  match s.run with
  | .running => runCycle s
  | .awaitingKey => .next s
  | .halted => .next s

end Machine
end Sys2Proof
end

