-- ==== Sys2Proof/Machine/HostOps.lean ====
section
/-! DEFINITION. The other host operations, `Reset`, `Load`, `Tick` and `KeyPress`, and the outputs the host reads
(spec/10_state.md R26 to R33). -/

namespace Sys2Proof
namespace Machine

/-- `Reset`: every piece of state of the block at its reset value (R230). The host's side stays as it is (log 8). -/
def resetBlock (s : State) : State :=
  { State.reset with
    schedule := s.schedule, loadResult := s.loadResult, keysIn := s.keysIn, keysTaken := s.keysTaken,
    rndIn := s.rndIn, rndTaken := s.rndTaken }

/-- `Load(rom)`: a reset and the image at 0x200 (R233), or `LoadError` and no change (R234); and what is answered. -/
def loadRom (rom : List Byte) (s : State) : State × LoadResult :=
  if rom.length ≤ Config.progMax then
    ({ resetBlock s with mem := memWrite [] Config.progBase rom }, .ok)
  else (s, .loadError)

/-- A timer counts down by 1 unless it is 0 (R214). -/
def countDown (b : Byte) : Byte := if b.toNat = 0 then b else b - 1

/-- `Tick`, in every run state (R214, R215). -/
def tick (s : State) : State := { s with dt := countDown s.dt, st := countDown s.st }

/-- `KeyPress(k)`: ends an `Fx0A` wait (R183), else changes nothing (R184). -/
def keyPress (k : Key) (s : State) : State :=
  match s.run with
  | .awaitingKey => { s.setReg s.kreg (BitVec.ofNat 8 k.val) with run := .running }
  | .running => s
  | .halted => s

/-- One host operation (R26). The answer of `Load` goes to the host's side. -/
def perform (op : HostOp) (s : State) : Result :=
  match op with
  | .reset => .next (resetBlock s)
  | .load rom => .next { (loadRom rom s).1 with loadResult := some (loadRom rom s).2 }
  | .cycle => cycle s
  | .tick => .next (tick s)
  | .keyPress k => .next (keyPress k s)

/-- Output `FB` snapshot (R29). -/
def State.snapshot (s : State) : Framebuffer := s.fb

/-- Output `TONE` (R30). -/
def State.tone (s : State) : Bool := decide (0 < s.st.toNat)

/-- Output `AWAITING` (R31). -/
def State.awaiting (s : State) : Bool := decide (s.run = .awaitingKey)

/-- Output `HALTED` (R32). -/
def State.halted (s : State) : Bool := decide (s.run = .halted)

/-- Output `FAULT`, with the number of the code (R32, R200, R207). -/
def State.faultOut (s : State) : Option (Nat × Word × Option Word × Nat) :=
  s.fault.map fun f => (f.code.number, f.pc, f.word, f.info)

end Machine
end Sys2Proof
end

