-- ==== Sys2Proof/Machine/Step.lean ====
section
/-! DEFINITION. One step: the next host operation of the schedule, and `Cycle` where the schedule is empty
(spec/10_state.md R26, log 3). -/

namespace Sys2Proof
namespace Machine

/-- The next operation: the first of the schedule, which is taken off it, else `Cycle`. -/
def step (s : State) : Host.Outcome State Fault Refusal :=
  match s.schedule with
  | [] => cycle s
  | op :: rest => perform op { s with schedule := rest }

/-- Where withFetchWord places the word: at `PC`, or at the entry point where `PC` is outside 0x000 to 0xFFE. -/
def State.fetchAddress (s : State) : Nat := if s.pc.toNat < Config.addrMax then s.pc.toNat else Config.progBase

/-- The state whose next step is a `Cycle` that fetches the word `w` (log 11): the word's two bytes at the address of
the fetch, the machine running and without a fault, and no other host operation first. -/
def State.withFetchWord (s : State) (nbits w : Nat) : State :=
  { s with
    pc := BitVec.ofNat 16 s.fetchAddress
    mem := memWrite s.mem s.fetchAddress (wordBytes (tableWord nbits w))
    run := .running
    fault := none
    schedule := [] }

end Machine
end Sys2Proof
end

