-- ==== Sys2Proof/Safety.lean ====
section
/-! DEFINITION. What the statements speak of: the faults each instruction can raise, the illegal words, the bytes
after an instruction, the stable situations of a run, and the invariant of the machine (spec/40_cycle.md R84;
spec/30_encoding.md R70; spec/20_memory.md R56; spec/70_reset_and_hazards.md R245; spec/10_state.md R13, R15, R22). -/

namespace Sys2Proof
namespace Machine

/-- The table of R84: the condition under which each instruction faults, with the fault and its info; for `2nnn` the
model's 16 entries or more (log 6). -/
def faultCondition (i : Instr) (s : State) : Option (FaultCode × Nat) :=
  match i with
  | .ret => if s.stack = [] then some (.stackUnderflow, 0) else none
  | .call _ => if 16 ≤ s.stack.length then some (.stackOverflow, 0) else none
  | .drw _ _ n =>
    if 1 ≤ n ∧ 0xFFF < s.i.toNat + n - 1 then some (.addressFault, s.i.toNat + n - 1) else none
  | .ldB _ => if 0xFFF < s.i.toNat + 2 then some (.addressFault, s.i.toNat + 2) else none
  | .stRegs x => if 0xFFF < s.i.toNat + x.val then some (.addressFault, s.i.toNat + x.val) else none
  | .ldRegs x => if 0xFFF < s.i.toNat + x.val then some (.addressFault, s.i.toNat + x.val) else none
  | .skp x => if 0x0F < (s.reg x).toNat then some (.keyIndexFault, (s.reg x).toNat) else none
  | .sknp x => if 0x0F < (s.reg x).toNat then some (.keyIndexFault, (s.reg x).toNat) else none
  | .cls | .jp _ | .seImm _ _ | .sneImm _ _ | .seReg _ _ | .sneReg _ _ | .jpV0 _ => none
  | .ldImm _ _ | .addImm _ _ | .ldReg _ _ | .orReg _ _ | .andReg _ _ | .xorReg _ _ | .addReg _ _ => none
  | .sub _ _ | .shr _ _ | .subn _ _ | .shl _ _ | .rnd _ _ => none
  | .ldI _ | .addI _ | .ldF _ | .ldVxDt _ | .ldVxK _ | .ldDtVx _ | .ldStVx _ => none

/-- The state after a faulting `Cycle`: two things change (R206). -/
def haltedWith (f : FaultRecord) (s : State) : State := { s with run := .halted, fault := some f }

/-- The complete list of illegal words (R70), read as numbers. -/
def illegalWord (w : Word) : Prop :=
  (w.toNat / 4096 = 0x0 ∧ w.toNat ≠ 0x00E0 ∧ w.toNat ≠ 0x00EE) ∨
  (w.toNat / 4096 = 0x5 ∧ w.toNat % 16 ≠ 0) ∨
  (w.toNat / 4096 = 0x8 ∧ w.toNat % 16 ∈ [0x8, 0x9, 0xA, 0xB, 0xC, 0xD, 0xF]) ∨
  (w.toNat / 4096 = 0x9 ∧ w.toNat % 16 ≠ 0) ∨
  (w.toNat / 4096 = 0xE ∧ w.toNat % 256 ∉ [0x9E, 0xA1]) ∨
  (w.toNat / 4096 = 0xF ∧ w.toNat % 256 ∉ [0x07, 0x0A, 0x15, 0x18, 0x1E, 0x29, 0x33, 0x55, 0x65])

/-- The `FAULT` records that R200 to R205 and R207 allow for a machine whose `PC` is pc. -/
def FaultRecord.legal (f : FaultRecord) (pc : Word) : Prop :=
  f.pc = pc ∧
  match f.code with
  | .decodeFault => ∃ w, f.word = some w ∧ illegalWord w ∧ f.info = w.toNat
  | .stackUnderflow => f.word = some 0x00EE ∧ f.info = 0
  | .stackOverflow => (∃ nnn, nnn < 4096 ∧ f.word = some (encode (.call nnn))) ∧ f.info = 0
  | .addressFault =>
    0xFFF < f.info ∧ f.info ≤ 0x1000E ∧
      match f.word with
      | none => f.info = pc.toNat + 1
      | some w => (∃ x y n, 1 ≤ n ∧ n < 16 ∧ w = encode (.drw x y n)) ∨
          ∃ x, w = encode (.ldB x) ∨ w = encode (.stRegs x) ∨ w = encode (.ldRegs x)
  | .keyIndexFault => 0x0F < f.info ∧ f.info ≤ 0xFF ∧ ∃ x, f.word = some (encode (.skp x)) ∨ f.word = some (encode (.sknp x))

/-- The invariant of the machine: memory in its canonical form, `PC` in the range of R13, at most `STACK_MAX` entries
(R15), each a return address of at most 0x1000 (R101), and a `FAULT` record exactly while `HALTED` (R22), which
describes the instruction at `PC` (R206, R207). -/
structure State.Inv (s : State) : Prop where
  mem : s.mem.wf
  pc : s.pc.toNat ≤ 0x10FE
  depth : s.stack.length ≤ 16
  entries : ∀ a ∈ s.stack, a.toNat ≤ 0x1000
  halted : s.run = .halted ↔ s.fault ≠ none
  record : ∀ f, s.fault = some f → f.legal s.pc

/-- The general registers an instruction may write: the destination its pattern names, and `VF` for the six that write
a flag (R10, R11). -/
def writesReg (i : Instr) (r : RegIdx) : Prop :=
  match i with
  | .ldImm x _ | .addImm x _ | .ldReg x _ | .orReg x _ | .andReg x _ | .xorReg x _ | .rnd x _ | .ldVxDt x => r = x
  | .addReg x _ | .sub x _ | .shr x _ | .subn x _ | .shl x _ => r = x ∨ r = VF
  | .drw _ _ _ => r = VF
  | .ldRegs x => r.val ≤ x.val
  | .cls | .ret | .jp _ | .call _ | .seImm _ _ | .sneImm _ _ | .seReg _ _ | .sneReg _ _ | .jpV0 _ => False
  | .ldI _ | .addI _ | .ldF _ | .ldB _ | .stRegs _ | .skp _ | .sknp _ | .ldVxK _ | .ldDtVx _ | .ldStVx _ => False

/-- The byte at an address after an instruction that has not faulted: what the instruction stores there (R144, R145), else
the byte that was there (R56). -/
def byteAfter (i : Instr) (s : State) (a : Nat) : Byte :=
  match i with
  | .ldB x =>
    if a = s.i.toNat then BitVec.ofNat 8 ((s.reg x).toNat / 100)
    else if a = s.i.toNat + 1 then BitVec.ofNat 8 ((s.reg x).toNat / 10 % 10)
    else if a = s.i.toNat + 2 then BitVec.ofNat 8 ((s.reg x).toNat % 10)
    else s.mem.read a
  | .stRegs x =>
    if h : s.i.toNat ≤ a ∧ a ≤ s.i.toNat + x.val then s.reg ⟨a - s.i.toNat, by omega⟩ else s.mem.read a
  | .cls | .ret | .jp _ | .call _ | .seImm _ _ | .sneImm _ _ | .seReg _ _ | .sneReg _ _ | .jpV0 _ => s.mem.read a
  | .ldImm _ _ | .addImm _ _ | .ldReg _ _ | .orReg _ _ | .andReg _ _ | .xorReg _ _ | .addReg _ _ => s.mem.read a
  | .sub _ _ | .shr _ _ | .subn _ _ | .shl _ _ | .rnd _ _ | .drw _ _ _ | .skp _ | .sknp _ => s.mem.read a
  | .ldI _ | .addI _ | .ldF _ | .ldRegs _ | .ldVxDt _ | .ldVxK _ | .ldDtVx _ | .ldStVx _ => s.mem.read a

/-- The states agree on every piece of state of the block (R10 to R22). -/
def State.sameBlock (s t : State) : Prop :=
  s.v = t.v ∧ s.i = t.i ∧ s.pc = t.pc ∧ s.stack = t.stack ∧ s.dt = t.dt ∧ s.st = t.st ∧ s.mem = t.mem ∧
    s.fb = t.fb ∧ s.run = t.run ∧ s.kreg = t.kreg ∧ s.fault = t.fault

/-- A run has failed (R208, R245 (a)). -/
abbrev State.failed (s : State) : Prop := s.run = .halted

/-- A run is waiting for a key (R221, R245 (b)). -/
abbrev State.waiting (s : State) : Prop := s.run = .awaitingKey

/-- The idiomatic "program finished": a jump to its own address in state `RUNNING` (R245 (c)). -/
def State.finished (s : State) : Prop :=
  s.run = .running ∧ s.pc.toNat < 0xFFF ∧ fetchWord s.mem s.pc.toNat = encode (.jp s.pc.toNat)

/-- A run is safe while no fault has halted it; a failed machine is never a finished one (R208, R245). -/
abbrev State.safe (s : State) : Prop := ¬ s.failed

end Machine
end Sys2Proof
end

