-- ==== Sys2Proof/Certificates/Slice0/Obligations.lean ====
section
/-! DEFINITION. The statements for the provers, one def a statement; OBLIGATIONS.json lists them. -/

open Sys2Proof
open Sys2Proof.Machine

/-! ### Encoding -/

/-- Decoding the word, or the bytes, of a well-formed instruction gives it back with every operand (R61 to R68). -/
def Obligations.DecodeInvertsEncode : Prop :=
  ∀ i : Instr, i.wf = true →
    decodeWord (encode i) = some i ∧ ∀ rest : List Byte, decodeBytes (encodeBytes i ++ rest) = .instr i rest

/-- A word that decodes is the word of the well-formed instruction it decodes to: no bit of it is dropped, the ignored
`y` of the shifts included (R67). -/
def Obligations.EncodeInvertsDecode : Prop :=
  ∀ (w : Word) (i : Instr), decodeWord w = some i → i.wf = true ∧ encode i = w

/-- Decoding selects the row of the opcode map with `w & mask = match`, and a word that matches no row is illegal
(R66, R68). -/
def Obligations.OpcodeMapSelectsInstruction : Prop :=
  (∀ (w : Word) (r : OpcodeRow), r ∈ opcodeRows → w &&& r.mask = r.pattern →
    ∃ i, decodeWord w = some i ∧ i.mnemonic = r.mnemonic) ∧
  ∀ w : Word, (∀ r ∈ opcodeRows, w &&& r.mask ≠ r.pattern) → decodeWord w = none

/-- The illegal words are those of the list of R70, and a `Cycle` that fetches one raises `DecodeFault`, with the word
as word and info, and executes nothing (R70, R201). -/
def Obligations.IllegalWordTakesDecodeFault : Prop :=
  (∀ w : Word, decodeWord w = none ↔ illegalWord w) ∧
  ∀ s : State, s.run = .running → s.pc.toNat ≤ 0xFFE → illegalWord (fetchWord s.mem s.pc.toNat) →
    cycle s = .next (haltedWith ⟨.decodeFault, s.pc, some (fetchWord s.mem s.pc.toNat),
      (fetchWord s.mem s.pc.toNat).toNat⟩ s)

/-- The bytes of the spec's worked encodings (R74) and of at least one word of each top nibble (R68) decode to the
instructions they stand for; 0x5121 is illegal (R66) and one byte is no instruction (R60). -/
def Obligations.SampleWordsDecode : Prop :=
  decodeBytes [0x6A, 0x02, 0x6B] = .instr (.ldImm 0xA 0x02) [0x6B] ∧
  decodeBytes [0x6B, 0x03] = .instr (.ldImm 0xB 0x03) [] ∧
  decodeBytes [0x8A, 0xB4] = .instr (.addReg 0xA 0xB) [] ∧
  decodeBytes [0xA0, 0x05] = .instr (.ldI 0x005) [] ∧
  decodeBytes [0xD0, 0x01] = .instr (.drw 0 0 1) [] ∧
  decodeBytes [0x00, 0xE0] = .instr .cls [] ∧
  decodeBytes [0x1A, 0xBC] = .instr (.jp 0xABC) [] ∧
  decodeBytes [0x2D, 0xEF] = .instr (.call 0xDEF) [] ∧
  decodeBytes [0x3A, 0x5C] = .instr (.seImm 0xA 0x5C) [] ∧
  decodeBytes [0x4A, 0x5C] = .instr (.sneImm 0xA 0x5C) [] ∧
  decodeBytes [0x51, 0x20] = .instr (.seReg 1 2) [] ∧
  decodeBytes [0x72, 0x01] = .instr (.addImm 2 0x01) [] ∧
  decodeBytes [0x91, 0x20] = .instr (.sneReg 1 2) [] ∧
  decodeBytes [0xBF, 0xFE] = .instr (.jpV0 0xFFE) [] ∧
  decodeBytes [0xC1, 0x0F] = .instr (.rnd 1 0x0F) [] ∧
  decodeBytes [0x8A, 0xBE] = .instr (.shl 0xA 0xB) [] ∧
  decodeBytes [0xE1, 0x9E] = .instr (.skp 1) [] ∧
  decodeBytes [0xF2, 0x55] = .instr (.stRegs 2) [] ∧
  decodeBytes [0x51, 0x21] = .reject (.illegalWord 0x5121) ∧
  decodeBytes [0x12] = .reject .truncated

/-! ### Reset, load, the host's schedule -/

/-- `Reset`, from any state, gives every piece of state of the block its reset value, and the outputs theirs; a `Cycle`
right after it raises `DecodeFault` on the word 0x0000 (R230, R231). -/
def Obligations.ResetGivesResetState : Prop :=
  ∀ s : State, ∃ t, perform .reset s = .next t ∧
    (∀ r, t.reg r = 0) ∧ t.i = 0 ∧ t.pc = 0x200 ∧ t.stack = [] ∧ t.dt = 0 ∧ t.st = 0 ∧
    (∀ cx cy, t.fb.pixel cx cy = false) ∧ t.run = .running ∧ t.kreg = 0 ∧ t.fault = none ∧
    memRead t.mem 0 80 = params.font ∧ (∀ a, 80 ≤ a → a ≤ 4095 → t.mem.read a = 0) ∧
    t.tone = false ∧ t.awaiting = false ∧ t.halted = false ∧ (∀ cx cy, t.snapshot.pixel cx cy = false) ∧
    cycle t = .next (haltedWith ⟨.decodeFault, 0x200, some 0x0000, 0x0000⟩ t)

/-- `Load` of at most 3584 bytes answers ok, places the image at 0x200 over the memory of a `Reset`, and leaves the
rest of the block as a `Reset` does (R233). -/
def Obligations.LoadPlacesProgram : Prop :=
  ∀ (rom : List Byte) (s : State), rom.length ≤ 3584 → ∃ t, loadRom rom s = (t, .ok) ∧
    (∀ j (h : j < rom.length), t.mem.read (0x200 + j) = rom[j]) ∧
    memRead t.mem 0 80 = params.font ∧
    (∀ a, 80 ≤ a → a ≤ 4095 → a < 0x200 ∨ 0x200 + rom.length ≤ a → t.mem.read a = 0) ∧
    t.sameBlock { State.reset with mem := t.mem }

/-- `Load` of more than 3584 bytes answers `LoadError` and changes no state; as a step of the schedule it changes, of
the model's own fields, the schedule and the recorded answer only (R222, R234; the schedule, log 3, and the recorded
answer, log 4, are the model's choices). -/
def Obligations.LoadTooLongChangesNothing : Prop :=
  ∀ (rom : List Byte) (s : State), 3584 < rom.length →
    loadRom rom s = (s, .loadError) ∧
    ∀ rest, s.schedule = .load rom :: rest →
      step s = .next { s with schedule := rest, loadResult := some .loadError }

/-- A step performs the first operation of the schedule on the state the previous one left, or `Cycle` where the schedule
is empty, and no operation changes the rest of the schedule (R26; the schedule is the model's, log 3). -/
def Obligations.ScheduleIsPerformedInOrder : Prop :=
  (∀ s : State, s.schedule = [] → step s = perform .cycle s) ∧
  (∀ (s : State) op rest, s.schedule = op :: rest → step s = perform op { s with schedule := rest }) ∧
  ∀ op (s t : State), perform op s = .next t → t.schedule = s.schedule

/-- When the bytes at `PC` decode to an instruction and the next operation is a `Cycle`, the step is that instruction's
meaning on that state (R81 to R85, R90; the schedule is the model's, log 3). -/
def Obligations.StepRunsDecodedInstruction : Prop :=
  ∀ (s : State) (i : Instr), s.run = .running → s.pc.toNat ≤ 0xFFE →
    decodeBytes (memRead s.mem s.pc.toNat 2) = .instr i [] →
    (s.schedule = [] → step s = exec i s) ∧
    ∀ rest, s.schedule = .cycle :: rest → step s = exec i { s with schedule := rest }

/-- The fetch: at `PC` 0xFFF or above an `AddressFault` with info `PC` + 1 and no word; else the big-endian word of the
two bytes at `PC`, which is decoded and then executed or refused (R81, R83). -/
def Obligations.FetchReadsBigEndianWord : Prop :=
  ∀ s : State, s.run = .running →
    (0xFFF ≤ s.pc.toNat → cycle s = .next (haltedWith ⟨.addressFault, s.pc, none, s.pc.toNat + 1⟩ s)) ∧
    (s.pc.toNat < 0xFFF → ∀ w : Word,
      w.toNat = (s.mem.read s.pc.toNat).toNat * 256 + (s.mem.read (s.pc.toNat + 1)).toNat →
      (∀ i, decodeWord w = some i → cycle s = exec i s) ∧
      (decodeWord w = none → cycle s = .next (haltedWith ⟨.decodeFault, s.pc, some w, w.toNat⟩ s)))

/-- Any number of `Cycle`s leaves a waiting or halted machine exactly as it is (R80, R208). -/
def Obligations.CyclesFreezeWhileWaitingOrHalted : Prop :=
  ∀ (s : State) (n : Nat), s.schedule = [] → s.run = .awaitingKey ∨ s.run = .halted →
    Sys2Proof.core.run n s = .next s

/-! ### Control flow -/

/-- `1nnn` and `Bnnn` replace `PC` by `nnn` and by the unmasked `nnn + V0`, and change nothing else (R102, R108). -/
def Obligations.JumpsReplacePc : Prop :=
  ∀ (nnn : Nat) (s : State), nnn < 4096 →
    (∃ t, exec (.jp nnn) s = .next t ∧ t.pc.toNat = nnn ∧ t = { s with pc := t.pc }) ∧
    ∃ t, exec (.jpV0 nnn) s = .next t ∧ t.pc.toNat = nnn + (s.reg 0).toNat ∧ t = { s with pc := t.pc }

/-- `2nnn` pushes the address after the call and jumps, or raises `StackOverflow` where the stack holds 16 entries and
changes nothing but the fault (R103). That more than 16 entries, which no run reaches, overflow too is the model's
choice (log 6). -/
def Obligations.CallPushesReturnAddress : Prop :=
  ∀ (nnn : Nat) (s : State), nnn < 4096 →
    (s.stack.length < 16 → ∃ t, exec (.call nnn) s = .next t ∧ t.pc.toNat = nnn ∧
      t.stack = s.stack ++ [BitVec.ofNat 16 (s.pc.toNat + 2)] ∧ t = { s with pc := t.pc, stack := t.stack }) ∧
    (16 ≤ s.stack.length →
      exec (.call nnn) s = .next (haltedWith ⟨.stackOverflow, s.pc, some (encode (.call nnn)), 0⟩ s))

/-- `00EE` continues at the last pushed entry and removes it, or raises `StackUnderflow` where the stack is empty and
changes nothing but the fault (R101). -/
def Obligations.ReturnPopsStack : Prop :=
  (∀ (s : State) (below : List Word) (a : Word), s.stack = below ++ [a] →
    exec .ret s = .next { s with pc := a, stack := below }) ∧
  ∀ s : State, s.stack = [] → exec .ret s = .next (haltedWith ⟨.stackUnderflow, s.pc, some 0x00EE, 0⟩ s)

/-- A return on the stack a call left restores the stack of before the call and continues at the instruction following
the call (R101, R103). -/
def Obligations.ReturnUndoesCall : Prop :=
  ∀ (nnn : Nat) (s t u : State), s.pc.toNat ≤ 0xFFE → s.stack.length < 16 → exec (.call nnn) s = .next t →
    u.stack = t.stack →
    ∃ w, exec .ret u = .next w ∧ w.pc.toNat = s.pc.toNat + 2 ∧ w.stack = s.stack

/-- The four skips on comparisons: `PC` advances by 4 where the condition holds and by 2 where not, and nothing else
changes (R104 to R107, R89). -/
def Obligations.SkipsOnComparison : Prop :=
  ∀ (x y : RegIdx) (kk : Byte) (s : State), s.pc.toNat ≤ 0xFFE →
    (∃ t, exec (.seImm x kk) s = .next t ∧ t = { s with pc := t.pc } ∧
      (s.reg x = kk → t.pc.toNat = s.pc.toNat + 4) ∧ (s.reg x ≠ kk → t.pc.toNat = s.pc.toNat + 2)) ∧
    (∃ t, exec (.sneImm x kk) s = .next t ∧ t = { s with pc := t.pc } ∧
      (s.reg x ≠ kk → t.pc.toNat = s.pc.toNat + 4) ∧ (s.reg x = kk → t.pc.toNat = s.pc.toNat + 2)) ∧
    (∃ t, exec (.seReg x y) s = .next t ∧ t = { s with pc := t.pc } ∧
      (s.reg x = s.reg y → t.pc.toNat = s.pc.toNat + 4) ∧ (s.reg x ≠ s.reg y → t.pc.toNat = s.pc.toNat + 2)) ∧
    ∃ t, exec (.sneReg x y) s = .next t ∧ t = { s with pc := t.pc } ∧
      (s.reg x ≠ s.reg y → t.pc.toNat = s.pc.toNat + 4) ∧ (s.reg x = s.reg y → t.pc.toNat = s.pc.toNat + 2)

/-! ### Registers and arithmetic -/

/-- `6xkk` and `8xy0` write `V[x]` and nothing else, `VF` only where x names it; `PC` advances by 2 (R121, R123). -/
def Obligations.LoadImmediateAndCopy : Prop :=
  ∀ (x y : RegIdx) (kk : Byte) (s : State),
    (∃ t, exec (.ldImm x kk) s = .next t ∧ t.reg x = kk ∧ (∀ r, r ≠ x → t.reg r = s.reg r) ∧
      t.pc = BitVec.ofNat 16 (s.pc.toNat + 2) ∧ t = { s with v := t.v, pc := t.pc }) ∧
    ∃ t, exec (.ldReg x y) s = .next t ∧ t.reg x = s.reg y ∧ (∀ r, r ≠ x → t.reg r = s.reg r) ∧
      t.pc = BitVec.ofNat 16 (s.pc.toNat + 2) ∧ t = { s with v := t.v, pc := t.pc }

/-- `7xkk` adds modulo 256 and writes no flag (R122). -/
def Obligations.AddImmediateWraps : Prop :=
  ∀ (x : RegIdx) (kk : Byte) (s : State), ∃ t, exec (.addImm x kk) s = .next t ∧
    (t.reg x).toNat = ((s.reg x).toNat + kk.toNat) % 256 ∧ (∀ r, r ≠ x → t.reg r = s.reg r) ∧
    t.pc = BitVec.ofNat 16 (s.pc.toNat + 2) ∧ t = { s with v := t.v, pc := t.pc }

/-- `8xy1`, `8xy2`, `8xy3` combine the bits of `V[x]` and `V[y]` by OR, AND and exclusive OR and write no flag
(R124 to R126). -/
def Obligations.LogicCombinesBits : Prop :=
  ∀ (x y : RegIdx) (s : State),
    (∃ t, exec (.orReg x y) s = .next t ∧
      (∀ k, (t.reg x).getLsbD k = ((s.reg x).getLsbD k || (s.reg y).getLsbD k)) ∧
      (∀ r, r ≠ x → t.reg r = s.reg r) ∧ t.pc = BitVec.ofNat 16 (s.pc.toNat + 2) ∧
      t = { s with v := t.v, pc := t.pc }) ∧
    (∃ t, exec (.andReg x y) s = .next t ∧
      (∀ k, (t.reg x).getLsbD k = ((s.reg x).getLsbD k && (s.reg y).getLsbD k)) ∧
      (∀ r, r ≠ x → t.reg r = s.reg r) ∧ t.pc = BitVec.ofNat 16 (s.pc.toNat + 2) ∧
      t = { s with v := t.v, pc := t.pc }) ∧
    ∃ t, exec (.xorReg x y) s = .next t ∧
      (∀ k, (t.reg x).getLsbD k = ((s.reg x).getLsbD k ^^ (s.reg y).getLsbD k)) ∧
      (∀ r, r ≠ x → t.reg r = s.reg r) ∧ t.pc = BitVec.ofNat 16 (s.pc.toNat + 2) ∧
      t = { s with v := t.v, pc := t.pc }

/-- `8xy4`: the sum modulo 256, then `VF` = 1 exactly where the sum exceeds 255; with x = F the flag stays (R127). -/
def Obligations.AddWritesCarry : Prop :=
  ∀ (x y : RegIdx) (s : State), ∃ t, exec (.addReg x y) s = .next t ∧
    (x ≠ VF → (t.reg x).toNat = ((s.reg x).toNat + (s.reg y).toNat) % 256) ∧
    (t.reg VF).toNat = (if 255 < (s.reg x).toNat + (s.reg y).toNat then 1 else 0) ∧
    (∀ r, r ≠ x → r ≠ VF → t.reg r = s.reg r) ∧
    t.pc = BitVec.ofNat 16 (s.pc.toNat + 2) ∧ t = { s with v := t.v, pc := t.pc }

/-- `8xy5` and `8xy7`: the difference modulo 256, then `VF` = 1 exactly where the minuend is strictly greater; with x = F
the flag stays (R128, R130). -/
def Obligations.SubtractWritesGreater : Prop :=
  ∀ (x y : RegIdx) (s : State),
    (∃ t, exec (.sub x y) s = .next t ∧
      (x ≠ VF → (t.reg x).toNat = ((s.reg x).toNat + 256 - (s.reg y).toNat) % 256) ∧
      (t.reg VF).toNat = (if (s.reg y).toNat < (s.reg x).toNat then 1 else 0) ∧
      (∀ r, r ≠ x → r ≠ VF → t.reg r = s.reg r) ∧
      t.pc = BitVec.ofNat 16 (s.pc.toNat + 2) ∧ t = { s with v := t.v, pc := t.pc }) ∧
    ∃ t, exec (.subn x y) s = .next t ∧
      (x ≠ VF → (t.reg x).toNat = ((s.reg y).toNat + 256 - (s.reg x).toNat) % 256) ∧
      (t.reg VF).toNat = (if (s.reg x).toNat < (s.reg y).toNat then 1 else 0) ∧
      (∀ r, r ≠ x → r ≠ VF → t.reg r = s.reg r) ∧
      t.pc = BitVec.ofNat 16 (s.pc.toNat + 2) ∧ t = { s with v := t.v, pc := t.pc }

/-- `8xy6` and `8xyE`: `V[x]` shifted by one place with zero fill, then `VF` = the bit shifted out; y is neither read nor
written; with x = F the flag stays (R129, R131). -/
def Obligations.ShiftsWriteBitOut : Prop :=
  ∀ (x y : RegIdx) (s : State),
    (∃ t, exec (.shr x y) s = .next t ∧
      (x ≠ VF → (t.reg x).toNat = (s.reg x).toNat / 2) ∧
      (t.reg VF).toNat = (s.reg x).toNat % 2 ∧
      (∀ r, r ≠ x → r ≠ VF → t.reg r = s.reg r) ∧
      t.pc = BitVec.ofNat 16 (s.pc.toNat + 2) ∧ t = { s with v := t.v, pc := t.pc }) ∧
    ∃ t, exec (.shl x y) s = .next t ∧
      (x ≠ VF → (t.reg x).toNat = (s.reg x).toNat * 2 % 256) ∧
      (t.reg VF).toNat = (s.reg x).toNat / 128 ∧
      (∀ r, r ≠ x → r ≠ VF → t.reg r = s.reg r) ∧
      t.pc = BitVec.ofNat 16 (s.pc.toNat + 2) ∧ t = { s with v := t.v, pc := t.pc }

/-- `Cxkk`: `V[x]` is the draw of `RND` masked by `kk`, whatever the draw is: a draw b that the host has laid out, or the
free one. Every bit that is 0 in `kk` is 0, and one draw is taken (R132; where draws come from and how they are counted is the
model's choice, log 1). -/
def Obligations.RandomIsMaskedDraw : Prop :=
  ∀ (x : RegIdx) (kk : Byte) (s : State), ∃ t, exec (.rnd x kk) s = .next t ∧
    t.reg x = s.rnd &&& kk ∧ (∀ b rest, s.rndIn = b :: rest → t.reg x = b &&& kk) ∧
    (∀ k, kk.getLsbD k = false → (t.reg x).getLsbD k = false) ∧
    (∀ r, r ≠ x → t.reg r = s.reg r) ∧ t.pc = BitVec.ofNat 16 (s.pc.toNat + 2) ∧
    t = { s with v := t.v, pc := t.pc, rndIn := s.rndIn.tail, rndTaken := s.rndTaken + 1 }

/-! ### The index register and memory -/

/-- `Annn`, `Fx1E`, `Fx29` write `I` with `nnn`, with `I + V[x]` modulo 65536, with `V[x] * 5`, and nothing else
(R141 to R143). -/
def Obligations.IndexWrites : Prop :=
  ∀ (nnn : Nat) (x : RegIdx) (s : State),
    (nnn < 4096 → ∃ t, exec (.ldI nnn) s = .next t ∧ t.i.toNat = nnn ∧
      t.pc = BitVec.ofNat 16 (s.pc.toNat + 2) ∧ t = { s with i := t.i, pc := t.pc }) ∧
    (∃ t, exec (.addI x) s = .next t ∧ t.i.toNat = (s.i.toNat + (s.reg x).toNat) % 65536 ∧
      t.pc = BitVec.ofNat 16 (s.pc.toNat + 2) ∧ t = { s with i := t.i, pc := t.pc }) ∧
    ∃ t, exec (.ldF x) s = .next t ∧ t.i.toNat = (s.reg x).toNat * 5 ∧
      t.pc = BitVec.ofNat 16 (s.pc.toNat + 2) ∧ t = { s with i := t.i, pc := t.pc }

/-- `Fx29` on a hexadecimal digit g sets `I` to the address of glyph g, where the memory of a `Reset` holds the five bytes
`FONT[5 * g]` to `FONT[5 * g + 4]` (R46, R143). -/
def Obligations.GlyphAddressFindsGlyph : Prop :=
  ∀ (x : RegIdx) (g : Fin 16) (s : State), (s.reg x).toNat = g.val → s.mem = State.reset.mem →
    ∃ t, exec (.ldF x) s = .next t ∧ t.i.toNat = 5 * g.val ∧
      ∀ r, r < 5 → params.font[5 * g.val + r]? = some (t.mem.read (t.i.toNat + r))

/-- `Fx33` stores the hundreds, tens and ones of `V[x]` at `I`, `I + 1`, `I + 2` and no other byte; where `I + 2` is above
0xFFF it raises `AddressFault` and stores nothing (R144). -/
def Obligations.DecimalStore : Prop :=
  ∀ (x : RegIdx) (s : State),
    (s.i.toNat + 2 ≤ 0xFFF → ∃ t, exec (.ldB x) s = .next t ∧
      (t.mem.read (s.ea 0)).toNat = (s.reg x).toNat / 100 ∧
      (t.mem.read (s.ea 1)).toNat = (s.reg x).toNat / 10 % 10 ∧
      (t.mem.read (s.ea 2)).toNat = (s.reg x).toNat % 10 ∧
      (∀ a, a < s.ea 0 ∨ s.ea 2 < a → t.mem.read a = s.mem.read a) ∧
      t.pc = BitVec.ofNat 16 (s.pc.toNat + 2) ∧ t = { s with mem := t.mem, pc := t.pc }) ∧
    (0xFFF < s.i.toNat + 2 → exec (.ldB x) s =
      .next (haltedWith ⟨.addressFault, s.pc, some (encode (.ldB x)), s.i.toNat + 2⟩ s))

/-- `Fx55` stores `V[k]` at `I + k` for k = 0 to x and no other byte; where `I + x` is above 0xFFF it raises
`AddressFault` and stores nothing (R145). -/
def Obligations.RegisterStore : Prop :=
  ∀ (x : RegIdx) (s : State),
    (s.i.toNat + x.val ≤ 0xFFF → ∃ t, exec (.stRegs x) s = .next t ∧
      (∀ k : RegIdx, k.val ≤ x.val → t.mem.read (s.ea k.val) = s.reg k) ∧
      (∀ a, a < s.ea 0 ∨ s.ea x.val < a → t.mem.read a = s.mem.read a) ∧
      t.pc = BitVec.ofNat 16 (s.pc.toNat + 2) ∧ t = { s with mem := t.mem, pc := t.pc }) ∧
    (0xFFF < s.i.toNat + x.val → exec (.stRegs x) s =
      .next (haltedWith ⟨.addressFault, s.pc, some (encode (.stRegs x)), s.i.toNat + x.val⟩ s))

/-- `Fx65` loads `V[k]` from `I + k` for k = 0 to x and leaves the registers above x; where `I + x` is above 0xFFF it
raises `AddressFault` and loads nothing (R146). -/
def Obligations.RegisterLoad : Prop :=
  ∀ (x : RegIdx) (s : State),
    (s.i.toNat + x.val ≤ 0xFFF → ∃ t, exec (.ldRegs x) s = .next t ∧
      (∀ k : RegIdx, k.val ≤ x.val → t.reg k = s.mem.read (s.i.toNat + k.val)) ∧
      (∀ k : RegIdx, x.val < k.val → t.reg k = s.reg k) ∧
      t.pc = BitVec.ofNat 16 (s.pc.toNat + 2) ∧ t = { s with v := t.v, pc := t.pc }) ∧
    (0xFFF < s.i.toNat + x.val → exec (.ldRegs x) s =
      .next (haltedWith ⟨.addressFault, s.pc, some (encode (.ldRegs x)), s.i.toNat + x.val⟩ s))

/-- After `Fx55`, and anything that changes neither `I` nor the stored bytes, `Fx65` with the same x brings back the
registers `V0` to `Vx` of before the `Fx55` (R147). -/
def Obligations.StoreLoadRoundTrip : Prop :=
  ∀ (x : RegIdx) (s t u : State), s.i.toNat + x.val ≤ 0xFFF → exec (.stRegs x) s = .next t →
    u.i = t.i → (∀ k, k ≤ x.val → u.mem.read (s.i.toNat + k) = t.mem.read (s.i.toNat + k)) →
    ∃ w, exec (.ldRegs x) u = .next w ∧ ∀ k : RegIdx, k.val ≤ x.val → w.reg k = s.reg k

/-- Self-modifying code: after an `Fx55` or `Fx33` that does not fault, the very next step fetches the two bytes after it
as they then are, whichever of them it has stored and whichever were there before, and executes the instruction they
hold, or raises `DecodeFault` where they hold none; the storing instruction itself executes as it was fetched (R52; the
schedule is the model's, log 3). -/
def Obligations.StoreSeenByNextFetch : Prop :=
  ∀ (s : State) (store : Instr) (x : RegIdx) (w : Word), s.schedule = [] → s.run = .running → s.pc.toNat ≤ 0xFFC →
    store = .stRegs x ∨ store = .ldB x → faultCondition store s = none → fetchWord s.mem s.pc.toNat = encode store →
    w = wordOfBytes (byteAfter store s (s.pc.toNat + 2)) (byteAfter store s (s.pc.toNat + 3)) →
    ∃ t, step s = .next t ∧ t.pc.toNat = s.pc.toNat + 2 ∧
      (∀ i, decodeWord w = some i → step t = exec i t) ∧
      (decodeWord w = none → step t = .next (haltedWith ⟨.decodeFault, t.pc, some w, w.toNat⟩ t))

/-- Two memories in canonical form that read the same at every address are the same data (R40, R53). -/
def Obligations.CanonicalMemoryIsUnique : Prop :=
  ∀ m m' : Memory, m.wf → m'.wf → (∀ a, a ≤ 0xFFF → m.read a = m'.read a) → m = m'

/-! ### The display -/

/-- `00E0` makes every pixel 0 and changes nothing else (R163). -/
def Obligations.ClearBlanksDisplay : Prop :=
  ∀ s : State, ∃ t, exec .cls s = .next t ∧ (∀ cx cy, t.fb.pixel cx cy = false) ∧
    t.pc = BitVec.ofNat 16 (s.pc.toNat + 2) ∧ t = { s with fb := t.fb, pc := t.pc }

/-- `Dxyn`: row r, column c of the sprite at `I` is XORed into the pixel ((`V[x]` + c) mod 64, (`V[y]` + r) mod 32), no
other pixel changes, and `VF` becomes 1 exactly where some pixel was on under a 1 bit, else 0; where the last row lies
above 0xFFF it raises `AddressFault` and draws nothing (R164). -/
def Obligations.DrawXorsSprite : Prop :=
  ∀ (x y : RegIdx) (n : Nat) (s : State), n < 16 →
    ((n = 0 ∨ s.i.toNat + n - 1 ≤ 0xFFF) → ∃ t, exec (.drw x y n) s = .next t ∧
      (∀ (r c : Nat) (qx : Fin 64) (qy : Fin 32), r < n → c < 8 →
        qx.val = ((s.reg x).toNat + c) % 64 → qy.val = ((s.reg y).toNat + r) % 32 →
        t.fb.pixel qx qy = (s.fb.pixel qx qy ^^ (s.mem.read (s.i.toNat + r)).getLsbD (7 - c))) ∧
      (∀ (qx : Fin 64) (qy : Fin 32),
        (∀ r c, r < n → c < 8 → ¬ (qx.val = ((s.reg x).toNat + c) % 64 ∧ qy.val = ((s.reg y).toNat + r) % 32)) →
        t.fb.pixel qx qy = s.fb.pixel qx qy) ∧
      (t.reg VF = 1 ↔ ∃ (r c : Nat) (qx : Fin 64) (qy : Fin 32), r < n ∧ c < 8 ∧
        qx.val = ((s.reg x).toNat + c) % 64 ∧ qy.val = ((s.reg y).toNat + r) % 32 ∧
        s.fb.pixel qx qy = true ∧ (s.mem.read (s.i.toNat + r)).getLsbD (7 - c) = true) ∧
      (t.reg VF = 0 ∨ t.reg VF = 1) ∧ (∀ q, q ≠ VF → t.reg q = s.reg q) ∧
      t.pc = BitVec.ofNat 16 (s.pc.toNat + 2) ∧ t = { s with v := t.v, fb := t.fb, pc := t.pc }) ∧
    (1 ≤ n → 0xFFF < s.i.toNat + n - 1 → exec (.drw x y n) s =
      .next (haltedWith ⟨.addressFault, s.pc, some (encode (.drw x y n)), s.i.toNat + n - 1⟩ s))

/-- `Dxy0` reads no memory, changes no pixel, cannot fault whatever `I` is, and writes `VF` with 0 (R165). -/
def Obligations.DrawOfNoRows : Prop :=
  ∀ (x y : RegIdx) (s : State), ∃ t, exec (.drw x y 0) s = .next t ∧ t.reg VF = 0 ∧
    (∀ q, q ≠ VF → t.reg q = s.reg q) ∧ t.fb = s.fb ∧
    (∀ m : Memory, exec (.drw x y 0) { s with mem := m } = .next { t with mem := m }) ∧
    t = { s with v := t.v, pc := t.pc }

/-- Two identical draws leave the framebuffer as it was before the first, and the second reports a collision exactly where
the first left one of the sprite's 1 bits on (R167 (a)). -/
def Obligations.DrawTwiceRestores : Prop :=
  ∀ (x y : RegIdx) (n : Nat) (s t u : State), n < 16 → (n = 0 ∨ s.i.toNat + n - 1 ≤ 0xFFF) →
    exec (.drw x y n) s = .next t →
    u.fb = t.fb → u.mem = s.mem → u.i = s.i → u.reg x = s.reg x → u.reg y = s.reg y →
    ∃ w, exec (.drw x y n) u = .next w ∧ w.fb = s.fb ∧
      (w.reg VF = 1 ↔ ∃ (r c : Nat) (qx : Fin 64) (qy : Fin 32), r < n ∧ c < 8 ∧
        qx.val = ((s.reg x).toNat + c) % 64 ∧ qy.val = ((s.reg y).toNat + r) % 32 ∧
        t.fb.pixel qx qy = true ∧ (s.mem.read (s.i.toNat + r)).getLsbD (7 - c) = true)

/-! ### The keypad and the timers -/

/-- `Ex9E` and `ExA1` where `V[x]` is the key code k: `PC` advances by 4 where the sampled level of key k is down (not
down), else by 2, nothing else of the block changes, and one sample is taken; where `V[x]` is above 15, `KeyIndexFault` before anything
changes (R180, R181; where samples come from and how they are counted is the model's choice, log 2). -/
def Obligations.KeySkips : Prop :=
  ∀ (x : RegIdx) (s : State), s.pc.toNat ≤ 0xFFE →
    (∀ k : Key, (s.reg x).toNat = k.val →
      (∃ t, exec (.skp x) s = .next t ∧
        (s.keys[k.val] = true → t.pc.toNat = s.pc.toNat + 4) ∧
        (s.keys[k.val] = false → t.pc.toNat = s.pc.toNat + 2) ∧
        t = { s with pc := t.pc, keysIn := s.keysIn.tail, keysTaken := s.keysTaken + 1 }) ∧
      ∃ t, exec (.sknp x) s = .next t ∧
        (s.keys[k.val] = false → t.pc.toNat = s.pc.toNat + 4) ∧
        (s.keys[k.val] = true → t.pc.toNat = s.pc.toNat + 2) ∧
        t = { s with pc := t.pc, keysIn := s.keysIn.tail, keysTaken := s.keysTaken + 1 }) ∧
    (0x0F < (s.reg x).toNat →
      exec (.skp x) s = .next (haltedWith ⟨.keyIndexFault, s.pc, some (encode (.skp x)), (s.reg x).toNat⟩ s) ∧
      exec (.sknp x) s = .next (haltedWith ⟨.keyIndexFault, s.pc, some (encode (.sknp x)), (s.reg x).toNat⟩ s))

/-- `Fx0A` writes `KREG` and `RUN` and advances `PC`, no general register; any number of `Cycle`s leaves the wait
as it is; a `KeyPress(k)` then writes k to `V[x]`, resumes, and changes nothing else (R182, R183). -/
def Obligations.KeyWaitLastsUntilKeyPress : Prop :=
  ∀ (x : RegIdx) (s : State) (n : Nat) (k : Key), ∃ t, exec (.ldVxK x) s = .next t ∧
    t.kreg = x ∧ t.run = .awaitingKey ∧ t.awaiting = true ∧ t.pc = BitVec.ofNat 16 (s.pc.toNat + 2) ∧
    t = { s with kreg := t.kreg, run := t.run, pc := t.pc } ∧
    (s.schedule = [] → Sys2Proof.core.run n t = .next t) ∧
    ∃ u, perform (.keyPress k) t = .next u ∧ (u.reg x).toNat = k.val ∧ (∀ r, r ≠ x → u.reg r = s.reg r) ∧
      u.run = .running ∧ u = { t with v := u.v, run := u.run }

/-- `KeyPress` outside a wait changes no state (R184). -/
def Obligations.KeyPressOutsideWaitIsIgnored : Prop :=
  ∀ (k : Key) (s : State), s.run = .running ∨ s.run = .halted → perform (.keyPress k) s = .next s

/-- `Fx07`, `Fx15`, `Fx18` move the delay timer to `V[x]`, and `V[x]` to the delay and the sound timer, and change nothing
else; `TONE` follows the value written to the sound timer (R185 to R187). -/
def Obligations.TimerMoves : Prop :=
  ∀ (x : RegIdx) (s : State),
    (∃ t, exec (.ldVxDt x) s = .next t ∧ t.reg x = s.dt ∧ (∀ r, r ≠ x → t.reg r = s.reg r) ∧
      t.pc = BitVec.ofNat 16 (s.pc.toNat + 2) ∧ t = { s with v := t.v, pc := t.pc }) ∧
    (∃ t, exec (.ldDtVx x) s = .next t ∧ t.dt = s.reg x ∧
      t.pc = BitVec.ofNat 16 (s.pc.toNat + 2) ∧ t = { s with dt := t.dt, pc := t.pc }) ∧
    ∃ t, exec (.ldStVx x) s = .next t ∧ t.st = s.reg x ∧ (t.tone = true ↔ s.reg x ≠ 0) ∧
      t.pc = BitVec.ofNat 16 (s.pc.toNat + 2) ∧ t = { s with st := t.st, pc := t.pc }

/-- After n `Tick`s each timer holds its value less n, never below 0, and nothing else has changed, in every run state
(R214, R215). -/
def Obligations.TicksCountDownToZero : Prop :=
  (∀ s : State, perform .tick s = .next (tick s)) ∧
  ∀ (n : Nat) (s : State), (tick^[n] s).dt.toNat = s.dt.toNat - n ∧ (tick^[n] s).st.toNat = s.st.toNat - n ∧
    tick^[n] s = { s with dt := (tick^[n] s).dt, st := (tick^[n] s).st }

/-! ### Whole-machine rules -/

/-- The check phase: every instruction takes the fault R84 lists for it exactly where its condition holds, with every
other piece of state as it was (R206); else it completes, with `FAULT` as it was and `RUN` as it was but for `Fx0A`
(R84, R85). That a stack of more than 16 entries overflows too, and that an ill-formed term, which no word decodes to,
is recorded by its truncated encoding, are the model's choices (log 6). -/
def Obligations.CheckPhaseDecidesFault : Prop :=
  ∀ (i : Instr) (s : State),
    (∀ c info, faultCondition i s = some (c, info) →
      exec i s = .next (haltedWith ⟨c, s.pc, some (encode i), info⟩ s)) ∧
    (faultCondition i s = none → ∃ t, exec i s = .next t ∧ t.fault = s.fault ∧
      ((∃ x, i = .ldVxK x) ∧ t.run = .awaitingKey ∨ (∀ x, i ≠ .ldVxK x) ∧ t.run = s.run))

/-- The invariant is kept by every step, whatever host operation it is (R13, R15, R22, R206, R207). -/
def Obligations.StepKeepsMachineWellFormed : Prop :=
  ∀ s t : State, s.Inv → step s = .next t → t.Inv

/-- The invariant holds after `Reset` (R230). -/
def Obligations.ResetIsWellFormed : Prop := State.reset.Inv

/-- Which instruction reaches which storage (R56, R88, R168): whatever an instruction changed, it is one of those that may
change it, and none touches the host's schedule or answers (the model's own fields, log 3 and log 4). -/
def Obligations.StorageHasItsWriters : Prop :=
  ∀ (i : Instr) (s t : State), exec i s = .next t →
    (t.mem ≠ s.mem → (∃ x, i = .ldB x) ∨ ∃ x, i = .stRegs x) ∧
    (t.fb ≠ s.fb → i = .cls ∨ ∃ x y n, i = .drw x y n) ∧
    (t.stack ≠ s.stack → i = .ret ∨ ∃ nnn, i = .call nnn) ∧
    (t.i ≠ s.i → (∃ nnn, i = .ldI nnn) ∨ (∃ x, i = .addI x) ∨ ∃ x, i = .ldF x) ∧
    (t.dt ≠ s.dt → ∃ x, i = .ldDtVx x) ∧
    (t.st ≠ s.st → ∃ x, i = .ldStVx x) ∧
    (t.kreg ≠ s.kreg → ∃ x, i = .ldVxK x) ∧
    (t.run ≠ s.run → (∃ x, i = .ldVxK x) ∨ t.run = .halted) ∧
    t.schedule = s.schedule ∧ t.loadResult = s.loadResult

/-- A general register changes only where the instruction names it as its destination or, for `VF`, is one of the six that
write a flag, and those write 0 or 1 (R10, R11). -/
def Obligations.RegistersHaveTheirWriters : Prop :=
  (∀ (i : Instr) (s t : State) (r : RegIdx), exec i s = .next t → t.reg r ≠ s.reg r → writesReg i r) ∧
  ∀ (i : Instr) (s t : State), faultCondition i s = none → exec i s = .next t →
    ((∃ x y, i = .addReg x y ∨ i = .sub x y ∨ i = .shr x y ∨ i = .subn x y ∨ i = .shl x y) ∨
      ∃ x y n, i = .drw x y n) →
    t.reg VF = 0 ∨ t.reg VF = 1

/-- No instruction but `Ex9E` and `ExA1` reads `KEYS`: with other key samples it does the same (R27;
the fields that hold them are the model's, log 2). -/
def Obligations.KeysAreReadOnlyByKeySkips : Prop :=
  ∀ (i : Instr) (s t : State) (ks : List Keypad) (n : Nat), (∀ x, i ≠ .skp x ∧ i ≠ .sknp x) → exec i s = .next t →
    exec i { s with keysIn := ks, keysTaken := n } = .next { t with keysIn := ks, keysTaken := n }

/-- No instruction but `Cxkk` reads `RND`: with other draws it does the same (R28; the fields that hold them
are the model's, log 1). -/
def Obligations.RandomIsReadOnlyByRnd : Prop :=
  ∀ (i : Instr) (s t : State) (bs : List Byte) (n : Nat), (∀ x kk, i ≠ .rnd x kk) → exec i s = .next t →
    exec i { s with rndIn := bs, rndTaken := n } = .next { t with rndIn := bs, rndTaken := n }

/-- Every state has a next state. This is the model's form (log 5): it takes each of the spec's faults as a next state and
refuses nothing. It says nothing of what a step does. -/
def Obligations.EveryStateSteps : Prop := ∀ s : State, ∃ t, step s = .next t

/-- Only `Reset` and a successful `Load` leave `HALTED`; any other operation changes at most the timers, and the fault
stands (R208, R209; schedule and recorded answer are the model's, log 3 and log 4). -/
def Obligations.HaltedIsLeftOnlyByResetOrLoad : Prop :=
  ∀ s t : State, s.run = .halted → step s = .next t →
    t = { s with dt := t.dt, st := t.st, schedule := t.schedule, loadResult := t.loadResult } ∨
    (∃ rest, s.schedule = .reset :: rest) ∨ ∃ rom rest, s.schedule = .load rom :: rest ∧ rom.length ≤ 3584

/-- Only `KeyPress`, `Reset` and a successful `Load` end the wait of `Fx0A`; any other operation changes at most the timers
(R184, R221; schedule and recorded answer are the model's, log 3 and log 4). -/
def Obligations.WaitIsLeftOnlyByKeyPressResetOrLoad : Prop :=
  ∀ s t : State, s.run = .awaitingKey → step s = .next t →
    t = { s with dt := t.dt, st := t.st, schedule := t.schedule, loadResult := t.loadResult } ∨
    (∃ k rest, s.schedule = .keyPress k :: rest) ∨
    (∃ rest, s.schedule = .reset :: rest) ∨ ∃ rom rest, s.schedule = .load rom :: rest ∧ rom.length ≤ 3584

/-- `TONE` is on exactly while the sound timer is above 0, and a step changes it only where it is a `Cycle` that executes an
`Fx18`, to whether the value written is non-zero, or turns it off by a `Tick` from 1, a `Reset` or a successful `Load`
(R30 with R17, R56, R88; the schedule is the model's, log 3). -/
def Obligations.ToneHasItsCauses : Prop :=
  (∀ s : State, s.tone = true ↔ 0 < s.st.toNat) ∧
  ∀ s t : State, step s = .next t → t.tone ≠ s.tone →
    (∃ x, (s.schedule = [] ∨ ∃ rest, s.schedule = .cycle :: rest) ∧ s.run = .running ∧ s.pc.toNat ≤ 0xFFE ∧
      decodeWord (fetchWord s.mem s.pc.toNat) = some (.ldStVx x) ∧ t.st = s.reg x ∧
      (t.tone = true ↔ s.reg x ≠ 0)) ∨
    (t.tone = false ∧ ((∃ rest, s.schedule = .tick :: rest ∧ s.st = 1) ∨ (∃ rest, s.schedule = .reset :: rest) ∨
      ∃ rom rest, s.schedule = .load rom :: rest ∧ rom.length ≤ 3584))

/-- A jump to its own address is a fixed point of `Cycle`, for any number of `Cycle`s, and is not a failure
(R102, R245 (c)). -/
def Obligations.SelfJumpIsFixedPoint : Prop :=
  ∀ (s : State) (n : Nat), s.finished → s.schedule = [] → Sys2Proof.core.run n s = .next s ∧ s.safe

/-- `TONE` is `ST > 0`: an `Fx18` turns it on where it writes a non-zero value and off where it writes 0, a `Tick` turns it
off where it takes the sound timer from 1 to 0 and else leaves it, and after a `Reset` or a successful `Load` it is off
(R30). -/
def Obligations.ToneFollowsSoundTimer : Prop :=
  (∀ s : State, s.tone = true ↔ 0 < s.st.toNat) ∧
  (∀ (x : RegIdx) (s : State), ∃ t, exec (.ldStVx x) s = .next t ∧
    (s.reg x ≠ 0 → t.tone = true) ∧ (s.reg x = 0 → t.tone = false)) ∧
  (∀ s : State, ∃ t, perform .tick s = .next t ∧
    (s.st = 1 → t.tone = false) ∧ (s.st ≠ 1 → t.tone = s.tone)) ∧
  (∀ s : State, ∃ t, perform .reset s = .next t ∧ t.tone = false) ∧
  ∀ (rom : List Byte) (s : State), rom.length ≤ 3584 → ∃ t, perform (.load rom) s = .next t ∧ t.tone = false

/-- Every byte of memory after an instruction that does not fault is the one it stores there, or the one that was there
(R56, R144, R145). -/
def Obligations.InstructionLeavesBytes : Prop :=
  ∀ (i : Instr) (s t : State), faultCondition i s = none → exec i s = .next t →
    ∀ a, t.mem.read a = byteAfter i s a
end

