-- ==== Sys2Proof/Laws/Decode.lean ====
section
/-! SUPPORT. The fields of the three formats, and the opcode map's rows exclude one another (R61, R62, R68). -/

namespace Sys2Proof

/-! ### A field read as a number -/

theorem fieldOp_eq (w : Word) : fieldOp w = w.toNat / 4096 := by
  have := w.isLt
  simp only [fieldOp, BitVec.extractLsb'_toNat, Nat.shiftRight_eq_div_pow]
  omega

theorem fieldX_val (w : Word) : (fieldX w).val = w.toNat / 256 % 16 := by
  simp only [fieldX, BitVec.extractLsb'_toNat, Nat.shiftRight_eq_div_pow]

theorem fieldY_val (w : Word) : (fieldY w).val = w.toNat / 16 % 16 := by
  simp only [fieldY, BitVec.extractLsb'_toNat, Nat.shiftRight_eq_div_pow]

theorem fieldN_eq (w : Word) : fieldN w = w.toNat % 16 := by
  simp only [fieldN, BitVec.extractLsb'_toNat, Nat.shiftRight_eq_div_pow]
  omega

theorem fieldKK_toNat (w : Word) : (fieldKK w).toNat = w.toNat % 256 := by
  simp only [fieldKK, BitVec.extractLsb'_toNat, Nat.shiftRight_eq_div_pow]
  omega

theorem fieldNNN_eq (w : Word) : fieldNNN w = w.toNat % 4096 := by
  simp only [fieldNNN, BitVec.extractLsb'_toNat, Nat.shiftRight_eq_div_pow]
  omega

/-! ### A format as a number -/

theorem formatA_toNat (op nnn : Nat) : (formatA op nnn).toNat = op % 16 * 4096 + nnn % 4096 := by
  have h : nnn % 2 ^ 12 < 2 ^ 12 := Nat.mod_lt _ (by decide)
  simp only [formatA, BitVec.toNat_append, BitVec.toNat_ofNat]
  rw [← Nat.shiftLeft_add_eq_or_of_lt h, Nat.shiftLeft_eq]
  omega

theorem formatXK_toNat (op : Nat) (x : RegIdx) (kk : Byte) :
    (formatXK op x kk).toNat = op % 16 * 4096 + x.val * 256 + kk.toNat := by
  have h1 : x.val % 2 ^ 4 < 2 ^ 4 := Nat.mod_lt _ (by decide)
  have h2 := x.isLt
  simp only [formatXK, BitVec.toNat_append, BitVec.toNat_ofNat]
  rw [← Nat.shiftLeft_add_eq_or_of_lt h1, ← Nat.shiftLeft_add_eq_or_of_lt kk.isLt, Nat.shiftLeft_eq, Nat.shiftLeft_eq]
  omega

theorem formatXY_toNat (op : Nat) (x y : RegIdx) (n : Nat) :
    (formatXY op x y n).toNat = op % 16 * 4096 + x.val * 256 + y.val * 16 + n % 16 := by
  have h1 : x.val % 2 ^ 4 < 2 ^ 4 := Nat.mod_lt _ (by decide)
  have h2 : y.val % 2 ^ 4 < 2 ^ 4 := Nat.mod_lt _ (by decide)
  have h3 : n % 2 ^ 4 < 2 ^ 4 := Nat.mod_lt _ (by decide)
  have h4 := x.isLt
  have h5 := y.isLt
  simp only [formatXY, BitVec.toNat_append, BitVec.toNat_ofNat]
  rw [← Nat.shiftLeft_add_eq_or_of_lt h1, ← Nat.shiftLeft_add_eq_or_of_lt h2, ← Nat.shiftLeft_add_eq_or_of_lt h3,
    Nat.shiftLeft_eq, Nat.shiftLeft_eq, Nat.shiftLeft_eq]
  omega

/-! ### The fields of a format -/

section fields
variable (op nnn n : Nat) (x y : RegIdx) (kk : Byte)

@[simp] theorem fieldOp_formatA : fieldOp (formatA op nnn) = op % 16 := by
  rw [fieldOp_eq, formatA_toNat]; omega

@[simp] theorem fieldNNN_formatA : fieldNNN (formatA op nnn) = nnn % 4096 := by
  rw [fieldNNN_eq, formatA_toNat]; omega

@[simp] theorem fieldOp_formatXK : fieldOp (formatXK op x kk) = op % 16 := by
  have := kk.isLt
  rw [fieldOp_eq, formatXK_toNat]; omega

@[simp] theorem fieldX_formatXK : fieldX (formatXK op x kk) = x := by
  have := kk.isLt
  apply Fin.ext
  rw [fieldX_val, formatXK_toNat]; omega

@[simp] theorem fieldKK_formatXK : fieldKK (formatXK op x kk) = kk := by
  have := kk.isLt
  apply BitVec.eq_of_toNat_eq
  rw [fieldKK_toNat, formatXK_toNat]; omega

@[simp] theorem fieldOp_formatXY : fieldOp (formatXY op x y n) = op % 16 := by
  rw [fieldOp_eq, formatXY_toNat]; omega

@[simp] theorem fieldX_formatXY : fieldX (formatXY op x y n) = x := by
  apply Fin.ext
  rw [fieldX_val, formatXY_toNat]; omega

@[simp] theorem fieldY_formatXY : fieldY (formatXY op x y n) = y := by
  apply Fin.ext
  rw [fieldY_val, formatXY_toNat]; omega

@[simp] theorem fieldN_formatXY : fieldN (formatXY op x y n) = n % 16 := by
  rw [fieldN_eq, formatXY_toNat]; omega

end fields

/-- The bytes of a word make the word (R48). -/
@[simp] theorem wordOfBytes_wordBytes (w : Word) : wordOfBytes (w.extractLsb' 8 8) (w.extractLsb' 0 8) = w := by
  apply BitVec.eq_of_toNat_eq
  have h := w.isLt
  have hlt : w.toNat % 2 ^ 8 < 2 ^ 8 := Nat.mod_lt _ (by decide)
  simp only [wordOfBytes, BitVec.toNat_append, BitVec.extractLsb'_toNat, Nat.shiftRight_zero]
  rw [← Nat.shiftLeft_add_eq_or_of_lt hlt, Nat.shiftLeft_eq, Nat.shiftRight_eq_div_pow]
  omega

/-- No two rows of the opcode map match one word: where both compare a bit, they differ in one (R68). -/
theorem opcodeRows_exclusive :
    opcodeRows.Pairwise fun r q => r.mask &&& q.mask &&& (r.pattern ^^^ q.pattern) ≠ 0 := by
  decide

/-- The map has the 34 rows (R68). -/
theorem opcodeRows_length : opcodeRows.length = 34 := by decide

end Sys2Proof
end

