-- ==== Sys2Proof/Laws/State.lean ====
section
/-! SUPPORT. One lemma per field per update of the state, true by rfl, so that no proof unfolds a record update; and
what the registers and derived reads see of each update. -/

namespace Sys2Proof
namespace Machine

section setReg
variable (s : State) (r : RegIdx) (b : Byte)

@[simp] theorem State.setReg_v : (s.setReg r b).v = s.v.set r.val b := rfl
@[simp] theorem State.setReg_i : (s.setReg r b).i = s.i := rfl
@[simp] theorem State.setReg_pc : (s.setReg r b).pc = s.pc := rfl
@[simp] theorem State.setReg_stack : (s.setReg r b).stack = s.stack := rfl
@[simp] theorem State.setReg_dt : (s.setReg r b).dt = s.dt := rfl
@[simp] theorem State.setReg_st : (s.setReg r b).st = s.st := rfl
@[simp] theorem State.setReg_mem : (s.setReg r b).mem = s.mem := rfl
@[simp] theorem State.setReg_fb : (s.setReg r b).fb = s.fb := rfl
@[simp] theorem State.setReg_run : (s.setReg r b).run = s.run := rfl
@[simp] theorem State.setReg_kreg : (s.setReg r b).kreg = s.kreg := rfl
@[simp] theorem State.setReg_fault : (s.setReg r b).fault = s.fault := rfl
@[simp] theorem State.setReg_schedule : (s.setReg r b).schedule = s.schedule := rfl
@[simp] theorem State.setReg_loadResult : (s.setReg r b).loadResult = s.loadResult := rfl
@[simp] theorem State.setReg_keysIn : (s.setReg r b).keysIn = s.keysIn := rfl
@[simp] theorem State.setReg_keysTaken : (s.setReg r b).keysTaken = s.keysTaken := rfl
@[simp] theorem State.setReg_rndIn : (s.setReg r b).rndIn = s.rndIn := rfl
@[simp] theorem State.setReg_rndTaken : (s.setReg r b).rndTaken = s.rndTaken := rfl

end setReg

section setPc
variable (s : State) (t : Nat)

@[simp] theorem State.setPc_v : (s.setPc t).v = s.v := rfl
@[simp] theorem State.setPc_i : (s.setPc t).i = s.i := rfl
@[simp] theorem State.setPc_pc : (s.setPc t).pc = BitVec.ofNat 16 t := rfl
@[simp] theorem State.setPc_stack : (s.setPc t).stack = s.stack := rfl
@[simp] theorem State.setPc_dt : (s.setPc t).dt = s.dt := rfl
@[simp] theorem State.setPc_st : (s.setPc t).st = s.st := rfl
@[simp] theorem State.setPc_mem : (s.setPc t).mem = s.mem := rfl
@[simp] theorem State.setPc_fb : (s.setPc t).fb = s.fb := rfl
@[simp] theorem State.setPc_run : (s.setPc t).run = s.run := rfl
@[simp] theorem State.setPc_kreg : (s.setPc t).kreg = s.kreg := rfl
@[simp] theorem State.setPc_fault : (s.setPc t).fault = s.fault := rfl
@[simp] theorem State.setPc_schedule : (s.setPc t).schedule = s.schedule := rfl
@[simp] theorem State.setPc_loadResult : (s.setPc t).loadResult = s.loadResult := rfl
@[simp] theorem State.setPc_keysIn : (s.setPc t).keysIn = s.keysIn := rfl
@[simp] theorem State.setPc_keysTaken : (s.setPc t).keysTaken = s.keysTaken := rfl
@[simp] theorem State.setPc_rndIn : (s.setPc t).rndIn = s.rndIn := rfl
@[simp] theorem State.setPc_rndTaken : (s.setPc t).rndTaken = s.rndTaken := rfl

end setPc

section setI
variable (s : State) (t : Nat)

@[simp] theorem State.setI_v : (s.setI t).v = s.v := rfl
@[simp] theorem State.setI_i : (s.setI t).i = BitVec.ofNat 16 t := rfl
@[simp] theorem State.setI_pc : (s.setI t).pc = s.pc := rfl
@[simp] theorem State.setI_stack : (s.setI t).stack = s.stack := rfl
@[simp] theorem State.setI_dt : (s.setI t).dt = s.dt := rfl
@[simp] theorem State.setI_st : (s.setI t).st = s.st := rfl
@[simp] theorem State.setI_mem : (s.setI t).mem = s.mem := rfl
@[simp] theorem State.setI_fb : (s.setI t).fb = s.fb := rfl
@[simp] theorem State.setI_run : (s.setI t).run = s.run := rfl
@[simp] theorem State.setI_kreg : (s.setI t).kreg = s.kreg := rfl
@[simp] theorem State.setI_fault : (s.setI t).fault = s.fault := rfl
@[simp] theorem State.setI_schedule : (s.setI t).schedule = s.schedule := rfl
@[simp] theorem State.setI_loadResult : (s.setI t).loadResult = s.loadResult := rfl
@[simp] theorem State.setI_keysIn : (s.setI t).keysIn = s.keysIn := rfl
@[simp] theorem State.setI_keysTaken : (s.setI t).keysTaken = s.keysTaken := rfl
@[simp] theorem State.setI_rndIn : (s.setI t).rndIn = s.rndIn := rfl
@[simp] theorem State.setI_rndTaken : (s.setI t).rndTaken = s.rndTaken := rfl

end setI

section takeKeys
variable (s : State)

@[simp] theorem State.takeKeys_v : (s.takeKeys).v = s.v := rfl
@[simp] theorem State.takeKeys_i : (s.takeKeys).i = s.i := rfl
@[simp] theorem State.takeKeys_pc : (s.takeKeys).pc = s.pc := rfl
@[simp] theorem State.takeKeys_stack : (s.takeKeys).stack = s.stack := rfl
@[simp] theorem State.takeKeys_dt : (s.takeKeys).dt = s.dt := rfl
@[simp] theorem State.takeKeys_st : (s.takeKeys).st = s.st := rfl
@[simp] theorem State.takeKeys_mem : (s.takeKeys).mem = s.mem := rfl
@[simp] theorem State.takeKeys_fb : (s.takeKeys).fb = s.fb := rfl
@[simp] theorem State.takeKeys_run : (s.takeKeys).run = s.run := rfl
@[simp] theorem State.takeKeys_kreg : (s.takeKeys).kreg = s.kreg := rfl
@[simp] theorem State.takeKeys_fault : (s.takeKeys).fault = s.fault := rfl
@[simp] theorem State.takeKeys_schedule : (s.takeKeys).schedule = s.schedule := rfl
@[simp] theorem State.takeKeys_loadResult : (s.takeKeys).loadResult = s.loadResult := rfl
@[simp] theorem State.takeKeys_keysIn : (s.takeKeys).keysIn = s.keysIn.tail := rfl
@[simp] theorem State.takeKeys_keysTaken : (s.takeKeys).keysTaken = s.keysTaken + 1 := rfl
@[simp] theorem State.takeKeys_rndIn : (s.takeKeys).rndIn = s.rndIn := rfl
@[simp] theorem State.takeKeys_rndTaken : (s.takeKeys).rndTaken = s.rndTaken := rfl

end takeKeys

section takeRnd
variable (s : State)

@[simp] theorem State.takeRnd_v : (s.takeRnd).v = s.v := rfl
@[simp] theorem State.takeRnd_i : (s.takeRnd).i = s.i := rfl
@[simp] theorem State.takeRnd_pc : (s.takeRnd).pc = s.pc := rfl
@[simp] theorem State.takeRnd_stack : (s.takeRnd).stack = s.stack := rfl
@[simp] theorem State.takeRnd_dt : (s.takeRnd).dt = s.dt := rfl
@[simp] theorem State.takeRnd_st : (s.takeRnd).st = s.st := rfl
@[simp] theorem State.takeRnd_mem : (s.takeRnd).mem = s.mem := rfl
@[simp] theorem State.takeRnd_fb : (s.takeRnd).fb = s.fb := rfl
@[simp] theorem State.takeRnd_run : (s.takeRnd).run = s.run := rfl
@[simp] theorem State.takeRnd_kreg : (s.takeRnd).kreg = s.kreg := rfl
@[simp] theorem State.takeRnd_fault : (s.takeRnd).fault = s.fault := rfl
@[simp] theorem State.takeRnd_schedule : (s.takeRnd).schedule = s.schedule := rfl
@[simp] theorem State.takeRnd_loadResult : (s.takeRnd).loadResult = s.loadResult := rfl
@[simp] theorem State.takeRnd_keysIn : (s.takeRnd).keysIn = s.keysIn := rfl
@[simp] theorem State.takeRnd_keysTaken : (s.takeRnd).keysTaken = s.keysTaken := rfl
@[simp] theorem State.takeRnd_rndIn : (s.takeRnd).rndIn = s.rndIn.tail := rfl
@[simp] theorem State.takeRnd_rndTaken : (s.takeRnd).rndTaken = s.rndTaken + 1 := rfl

end takeRnd

section push
variable (s : State) (t : Word)

@[simp] theorem State.push_v : (s.push t).v = s.v := rfl
@[simp] theorem State.push_i : (s.push t).i = s.i := rfl
@[simp] theorem State.push_pc : (s.push t).pc = s.pc := rfl
@[simp] theorem State.push_stack : (s.push t).stack = s.stack ++ [t] := rfl
@[simp] theorem State.push_dt : (s.push t).dt = s.dt := rfl
@[simp] theorem State.push_st : (s.push t).st = s.st := rfl
@[simp] theorem State.push_mem : (s.push t).mem = s.mem := rfl
@[simp] theorem State.push_fb : (s.push t).fb = s.fb := rfl
@[simp] theorem State.push_run : (s.push t).run = s.run := rfl
@[simp] theorem State.push_kreg : (s.push t).kreg = s.kreg := rfl
@[simp] theorem State.push_fault : (s.push t).fault = s.fault := rfl
@[simp] theorem State.push_schedule : (s.push t).schedule = s.schedule := rfl
@[simp] theorem State.push_loadResult : (s.push t).loadResult = s.loadResult := rfl
@[simp] theorem State.push_keysIn : (s.push t).keysIn = s.keysIn := rfl
@[simp] theorem State.push_keysTaken : (s.push t).keysTaken = s.keysTaken := rfl
@[simp] theorem State.push_rndIn : (s.push t).rndIn = s.rndIn := rfl
@[simp] theorem State.push_rndTaken : (s.push t).rndTaken = s.rndTaken := rfl

end push

section pop
variable (s : State)

@[simp] theorem State.pop_v : (s.pop).v = s.v := rfl
@[simp] theorem State.pop_i : (s.pop).i = s.i := rfl
@[simp] theorem State.pop_pc : (s.pop).pc = s.pc := rfl
@[simp] theorem State.pop_stack : (s.pop).stack = s.stack.dropLast := rfl
@[simp] theorem State.pop_dt : (s.pop).dt = s.dt := rfl
@[simp] theorem State.pop_st : (s.pop).st = s.st := rfl
@[simp] theorem State.pop_mem : (s.pop).mem = s.mem := rfl
@[simp] theorem State.pop_fb : (s.pop).fb = s.fb := rfl
@[simp] theorem State.pop_run : (s.pop).run = s.run := rfl
@[simp] theorem State.pop_kreg : (s.pop).kreg = s.kreg := rfl
@[simp] theorem State.pop_fault : (s.pop).fault = s.fault := rfl
@[simp] theorem State.pop_schedule : (s.pop).schedule = s.schedule := rfl
@[simp] theorem State.pop_loadResult : (s.pop).loadResult = s.loadResult := rfl
@[simp] theorem State.pop_keysIn : (s.pop).keysIn = s.keysIn := rfl
@[simp] theorem State.pop_keysTaken : (s.pop).keysTaken = s.keysTaken := rfl
@[simp] theorem State.pop_rndIn : (s.pop).rndIn = s.rndIn := rfl
@[simp] theorem State.pop_rndTaken : (s.pop).rndTaken = s.rndTaken := rfl

end pop

section takeFault
variable (s : State) (c : FaultCode) (w : Option Word) (info : Nat)

@[simp] theorem takeFault_v : (takeFault c w info s).v = s.v := rfl
@[simp] theorem takeFault_i : (takeFault c w info s).i = s.i := rfl
@[simp] theorem takeFault_pc : (takeFault c w info s).pc = s.pc := rfl
@[simp] theorem takeFault_stack : (takeFault c w info s).stack = s.stack := rfl
@[simp] theorem takeFault_dt : (takeFault c w info s).dt = s.dt := rfl
@[simp] theorem takeFault_st : (takeFault c w info s).st = s.st := rfl
@[simp] theorem takeFault_mem : (takeFault c w info s).mem = s.mem := rfl
@[simp] theorem takeFault_fb : (takeFault c w info s).fb = s.fb := rfl
@[simp] theorem takeFault_run : (takeFault c w info s).run = .halted := rfl
@[simp] theorem takeFault_kreg : (takeFault c w info s).kreg = s.kreg := rfl
@[simp] theorem takeFault_fault : (takeFault c w info s).fault = some ⟨c, s.pc, w, info⟩ := rfl
@[simp] theorem takeFault_schedule : (takeFault c w info s).schedule = s.schedule := rfl
@[simp] theorem takeFault_loadResult : (takeFault c w info s).loadResult = s.loadResult := rfl
@[simp] theorem takeFault_keysIn : (takeFault c w info s).keysIn = s.keysIn := rfl
@[simp] theorem takeFault_keysTaken : (takeFault c w info s).keysTaken = s.keysTaken := rfl
@[simp] theorem takeFault_rndIn : (takeFault c w info s).rndIn = s.rndIn := rfl
@[simp] theorem takeFault_rndTaken : (takeFault c w info s).rndTaken = s.rndTaken := rfl

end takeFault

section tick
variable (s : State)

@[simp] theorem tick_v : (tick s).v = s.v := rfl
@[simp] theorem tick_i : (tick s).i = s.i := rfl
@[simp] theorem tick_pc : (tick s).pc = s.pc := rfl
@[simp] theorem tick_stack : (tick s).stack = s.stack := rfl
@[simp] theorem tick_dt : (tick s).dt = countDown s.dt := rfl
@[simp] theorem tick_st : (tick s).st = countDown s.st := rfl
@[simp] theorem tick_mem : (tick s).mem = s.mem := rfl
@[simp] theorem tick_fb : (tick s).fb = s.fb := rfl
@[simp] theorem tick_run : (tick s).run = s.run := rfl
@[simp] theorem tick_kreg : (tick s).kreg = s.kreg := rfl
@[simp] theorem tick_fault : (tick s).fault = s.fault := rfl
@[simp] theorem tick_schedule : (tick s).schedule = s.schedule := rfl
@[simp] theorem tick_loadResult : (tick s).loadResult = s.loadResult := rfl
@[simp] theorem tick_keysIn : (tick s).keysIn = s.keysIn := rfl
@[simp] theorem tick_keysTaken : (tick s).keysTaken = s.keysTaken := rfl
@[simp] theorem tick_rndIn : (tick s).rndIn = s.rndIn := rfl
@[simp] theorem tick_rndTaken : (tick s).rndTaken = s.rndTaken := rfl

end tick

section derived
variable (s : State)

theorem State.advance_eq : s.advance = s.setPc (s.pc.toNat + 2) := rfl

theorem State.skipIf_eq (c : Bool) : s.skipIf c = s.setPc (if c then s.pc.toNat + 4 else s.pc.toNat + 2) := rfl

/-- Two states with the same registers read the same. -/
theorem State.reg_congr {s t : State} (h : s.v = t.v) (r : RegIdx) : s.reg r = t.reg r := by
  unfold State.reg; rw [h]

/-- A register after a register write (R10): the written one holds the byte, the others what they held. -/
@[simp] theorem State.reg_setReg (r q : RegIdx) (b : Byte) : (s.setReg r b).reg q = if r = q then b else s.reg q := by
  simp only [State.reg, State.setReg, Vector.getElem_set, Fin.ext_iff]

@[simp] theorem State.reg_setPc (t : Nat) (r : RegIdx) : (s.setPc t).reg r = s.reg r := rfl
@[simp] theorem State.reg_setI (t : Nat) (r : RegIdx) : (s.setI t).reg r = s.reg r := rfl
@[simp] theorem State.reg_takeKeys (r : RegIdx) : s.takeKeys.reg r = s.reg r := rfl
@[simp] theorem State.reg_takeRnd (r : RegIdx) : s.takeRnd.reg r = s.reg r := rfl
@[simp] theorem State.reg_push (t : Word) (r : RegIdx) : (s.push t).reg r = s.reg r := rfl
@[simp] theorem State.reg_pop (r : RegIdx) : s.pop.reg r = s.reg r := rfl

@[simp] theorem State.advance_reg (r : RegIdx) : s.advance.reg r = s.reg r := rfl
@[simp] theorem State.skipIf_reg (c : Bool) (r : RegIdx) : (s.skipIf c).reg r = s.reg r := rfl

@[simp] theorem State.npc_setReg (r : RegIdx) (b : Byte) : (s.setReg r b).npc = s.npc := rfl
@[simp] theorem State.npc_setI (t : Nat) : (s.setI t).npc = s.npc := rfl
@[simp] theorem State.npc_takeRnd : s.takeRnd.npc = s.npc := rfl
@[simp] theorem State.npc_takeKeys : s.takeKeys.npc = s.npc := rfl

/-- The registers after a result and a flag (R120): the flag in `VF`, the result in x unless x is `VF`. -/
@[simp] theorem State.reg_setResultAndFlag (x q : RegIdx) (r f : Byte) :
    (s.setResultAndFlag x r f).reg q = if VF = q then f else if x = q then r else s.reg q := by
  simp [State.setResultAndFlag]

/-- Two states with the same value in every register have the same register file. -/
theorem State.v_ext {s t : State} (h : ∀ r, s.reg r = t.reg r) : s.v = t.v := by
  apply Vector.ext
  intro k hk
  exact h ⟨k, hk⟩

end derived

end Machine
end Sys2Proof
end

