-- ==== Sys2Proof/Laws/Framebuffer.lean ====
section
/-! SUPPORT. The framebuffer's primitives, pixel by pixel (R161 to R166). -/

namespace Sys2Proof
namespace Machine

@[simp] theorem Framebuffer.pixel_blank (cx : Fin 64) (cy : Fin 32) : Framebuffer.blank.pixel cx cy = false := by
  simp [Framebuffer.pixel, Framebuffer.blank]

theorem Framebuffer.pixel_setPixel (fb : Framebuffer) (cx qx : Fin 64) (cy qy : Fin 32) (p : Bool) :
    (fb.setPixel cx cy p).pixel qx qy = if cx = qx ∧ cy = qy then p else fb.pixel qx qy := by
  unfold Framebuffer.pixel Framebuffer.setPixel
  by_cases hy : cy = qy
  · subst hy
    simp [Vector.getElem_set, Fin.ext_iff]
  · have : cy.val ≠ qy.val := fun e => hy (Fin.ext e)
    simp [this, hy]

/-- Two framebuffers with the same pixels are the same. -/
theorem Framebuffer.ext_pixel {fb fb' : Framebuffer} (h : ∀ cx cy, fb.pixel cx cy = fb'.pixel cx cy) : fb = fb' := by
  apply Vector.ext
  intro y hy
  apply Vector.ext
  intro x hx
  exact h ⟨x, hx⟩ ⟨y, hy⟩

theorem wrapCol_eq_iff {a b : Nat} : wrapCol a = wrapCol b ↔ a % 64 = b % 64 := by
  simp [wrapCol, Fin.ext_iff]

theorem wrapRow_eq_iff {a b : Nat} : wrapRow a = wrapRow b ↔ a % 32 = b % 32 := by
  simp [wrapRow, Fin.ext_iff]

/-- `togglePixel` inverts the addressed pixel where the bit is 1, and nothing else (R162). -/
theorem togglePixel_pixel (px py : Nat) (bit : Bool) (acc : Framebuffer × Bool) (qx : Fin 64) (qy : Fin 32) :
    (togglePixel px py bit acc).1.pixel qx qy =
      (acc.1.pixel qx qy ^^ (decide (wrapCol px = qx ∧ wrapRow py = qy) && bit)) := by
  unfold togglePixel
  simp only [Framebuffer.pixel_setPixel]
  by_cases h : wrapCol px = qx ∧ wrapRow py = qy
  · obtain ⟨rfl, rfl⟩ := h; simp
  · simp [h]

/-- What a row of a sprite asks of a pixel: the bit of the column that lands on it, if one does. -/
def rowBit (ox py : Nat) (b : Byte) (c count : Nat) (qx : Fin 64) (qy : Fin 32) : Prop :=
  ∃ k, k < count ∧ wrapCol (ox + (c + k)) = qx ∧ wrapRow py = qy ∧ b.getLsbD (7 - (c + k)) = true

theorem rowBit_zero (ox py : Nat) (b : Byte) (c : Nat) (qx : Fin 64) (qy : Fin 32) : ¬ rowBit ox py b c 0 qx qy := by
  rintro ⟨k, hk, -⟩; omega

theorem rowBit_succ (ox py : Nat) (b : Byte) (c count : Nat) (qx : Fin 64) (qy : Fin 32) :
    rowBit ox py b c (count + 1) qx qy ↔
      (wrapCol (ox + c) = qx ∧ wrapRow py = qy ∧ b.getLsbD (7 - c) = true) ∨ rowBit ox py b (c + 1) count qx qy := by
  constructor
  · rintro ⟨k, hk, h1, h2, h3⟩
    cases k with
    | zero => exact .inl ⟨h1, h2, h3⟩
    | succ k =>
      have e : c + (k + 1) = c + 1 + k := by omega
      rw [e] at h1 h3
      exact .inr ⟨k, by omega, h1, h2, h3⟩
  · rintro (⟨h1, h2, h3⟩ | ⟨k, hk, h1, h2, h3⟩)
    · exact ⟨0, by omega, h1, h2, h3⟩
    · have e : c + 1 + k = c + (k + 1) := by omega
      rw [e] at h1 h3
      exact ⟨k + 1, by omega, h1, h2, h3⟩

/-- A column already passed is not met again by the rest of its row (R166). -/
theorem rowBit_fresh {ox py : Nat} {b : Byte} {c count : Nat} (h : c + count ≤ 63) :
    ¬ rowBit ox py b (c + 1) count (wrapCol (ox + c)) (wrapRow py) := by
  rintro ⟨k, hk, h1, -⟩
  rw [wrapCol_eq_iff] at h1
  omega

open Classical in
/-- The pixels after a row of a sprite. -/
theorem drawBits_pixel (ox py : Nat) (b : Byte) (c count : Nat) (h : c + count ≤ 64) (acc : Framebuffer × Bool)
    (qx : Fin 64) (qy : Fin 32) :
    (drawBits ox py b c count acc).1.pixel qx qy = (acc.1.pixel qx qy ^^ decide (rowBit ox py b c count qx qy)) := by
  induction count generalizing c acc with
  | zero => simp [drawBits, rowBit_zero]
  | succ count ih =>
    rw [drawBits, ih (c + 1) (by omega), togglePixel_pixel, rowBit_succ]
    by_cases h1 : wrapCol (ox + c) = qx ∧ wrapRow py = qy
    · obtain ⟨rfl, rfl⟩ := h1
      have := @rowBit_fresh ox py b c count (by omega)
      simp [this]
    · have h2 : ¬ (wrapCol (ox + c) = qx ∧ wrapRow py = qy ∧ b.getLsbD (7 - c) = true) := fun ⟨x, y, _⟩ => h1 ⟨x, y⟩
      simp only [h1, h2, decide_false, Bool.false_and, Bool.xor_false, false_or]

/-- The collision so far after a row of a sprite (R164). -/
theorem drawBits_hit (ox py : Nat) (b : Byte) (c count : Nat) (h : c + count ≤ 64) (acc : Framebuffer × Bool) :
    (drawBits ox py b c count acc).2 = true ↔
      acc.2 = true ∨ ∃ qx qy, rowBit ox py b c count qx qy ∧ acc.1.pixel qx qy = true := by
  induction count generalizing c acc with
  | zero => simp [drawBits, rowBit_zero]
  | succ count ih =>
    rw [drawBits, ih (c + 1) (by omega)]
    have key : ∀ qx qy, rowBit ox py b (c + 1) count qx qy →
        (togglePixel (ox + c) py (b.getLsbD (7 - c)) acc).1.pixel qx qy = acc.1.pixel qx qy := by
      intro qx qy hr
      rw [togglePixel_pixel]
      have : ¬ (wrapCol (ox + c) = qx ∧ wrapRow py = qy) := by
        rintro ⟨rfl, rfl⟩
        exact rowBit_fresh (by omega) hr
      simp [this]
    constructor
    · rintro (h1 | ⟨qx, qy, hr, hp⟩)
      · simp only [togglePixel, Bool.or_eq_true, Bool.and_eq_true] at h1
        rcases h1 with h1 | ⟨h1, h2⟩
        · exact .inl h1
        · exact .inr ⟨_, _, (rowBit_succ ..).2 (.inl ⟨rfl, rfl, h2⟩), h1⟩
      · rw [key qx qy hr] at hp
        exact .inr ⟨qx, qy, (rowBit_succ ..).2 (.inr hr), hp⟩
    · rintro (h1 | ⟨qx, qy, hr, hp⟩)
      · left; simp [togglePixel, h1]
      · rcases (rowBit_succ ..).1 hr with ⟨rfl, rfl, h3⟩ | hr
        · left; simp [togglePixel, hp, h3]
        · exact .inr ⟨qx, qy, hr, by rw [key qx qy hr]; exact hp⟩

/-- What a sprite asks of a pixel: it has a 1 bit that lands on it. -/
def spriteBit (ox oy : Nat) (rows : List Byte) (qx : Fin 64) (qy : Fin 32) : Prop :=
  ∃ r c, ∃ h : r < rows.length, c < 8 ∧ wrapCol (ox + c) = qx ∧ wrapRow (oy + r) = qy ∧
    (rows[r]'h).getLsbD (7 - c) = true

theorem spriteBit_nil (ox oy : Nat) (qx : Fin 64) (qy : Fin 32) : ¬ spriteBit ox oy [] qx qy := by
  rintro ⟨r, c, h, -⟩; simp at h

theorem spriteBit_cons (ox oy : Nat) (b : Byte) (bs : List Byte) (qx : Fin 64) (qy : Fin 32) :
    spriteBit ox oy (b :: bs) qx qy ↔ rowBit ox oy b 0 8 qx qy ∨ spriteBit ox (oy + 1) bs qx qy := by
  constructor
  · rintro ⟨r, c, hr, hc, h1, h2, h3⟩
    cases r with
    | zero => exact .inl ⟨c, hc, by simpa using h1, h2, by simpa using h3⟩
    | succ r =>
      have e : oy + (r + 1) = oy + 1 + r := by omega
      rw [e] at h2
      exact .inr ⟨r, c, by simpa using hr, hc, h1, h2, by simpa using h3⟩
  · rintro (⟨c, hc, h1, h2, h3⟩ | ⟨r, c, hr, hc, h1, h2, h3⟩)
    · exact ⟨0, c, by simp, hc, by simpa using h1, h2, by simpa using h3⟩
    · have e : oy + 1 + r = oy + (r + 1) := by omega
      rw [e] at h2
      exact ⟨r + 1, c, by simpa using hr, hc, h1, h2, by simpa using h3⟩

/-- A row already passed is not met again by the rest of its sprite (R166). -/
theorem spriteBit_fresh {ox oy : Nat} {b : Byte} {bs : List Byte} (h : bs.length ≤ 31) {qx : Fin 64} {qy : Fin 32}
    (hb : rowBit ox oy b 0 8 qx qy) : ¬ spriteBit ox (oy + 1) bs qx qy := by
  obtain ⟨-, -, -, hy, -⟩ := hb
  rintro ⟨r, c, hr, -, -, h2, -⟩
  rw [← hy, wrapRow_eq_iff] at h2
  omega

open Classical in
/-- The pixels after a sprite: those with a 1 bit of the sprite on them are inverted (R164, R166). -/
theorem drawRows_pixel (ox oy : Nat) (rows : List Byte) (h : rows.length ≤ 32) (acc : Framebuffer × Bool)
    (qx : Fin 64) (qy : Fin 32) :
    (drawRows ox oy rows acc).1.pixel qx qy = (acc.1.pixel qx qy ^^ decide (spriteBit ox oy rows qx qy)) := by
  induction rows generalizing oy acc with
  | nil => simp [drawRows, spriteBit_nil]
  | cons b bs ih =>
    simp only [List.length_cons] at h
    rw [drawRows, ih (oy + 1) (by omega), drawBits_pixel _ _ _ _ _ (by decide), spriteBit_cons]
    by_cases hb : rowBit ox oy b 0 8 qx qy
    · have := spriteBit_fresh (bs := bs) (by omega) hb
      simp [hb, this]
    · simp [hb]

/-- The collision flag of a sprite: a 1 bit of it landed on a pixel that was on (R164). -/
theorem drawRows_hit (ox oy : Nat) (rows : List Byte) (h : rows.length ≤ 32) (acc : Framebuffer × Bool) :
    (drawRows ox oy rows acc).2 = true ↔
      acc.2 = true ∨ ∃ qx qy, spriteBit ox oy rows qx qy ∧ acc.1.pixel qx qy = true := by
  induction rows generalizing oy acc with
  | nil => simp [drawRows, spriteBit_nil]
  | cons b bs ih =>
    simp only [List.length_cons] at h
    rw [drawRows, ih (oy + 1) (by omega), drawBits_hit _ _ _ _ _ (by decide)]
    have key : ∀ qx qy, spriteBit ox (oy + 1) bs qx qy →
        (drawBits ox oy b 0 Config.spriteWidth acc).1.pixel qx qy = acc.1.pixel qx qy := by
      intro qx qy hr
      rw [drawBits_pixel _ _ _ _ _ (by decide)]
      have : ¬ rowBit ox oy b 0 8 qx qy := fun hb => spriteBit_fresh (by omega) hb hr
      simp [this]
    constructor
    · rintro ((h1 | ⟨qx, qy, hr, hp⟩) | ⟨qx, qy, hr, hp⟩)
      · exact .inl h1
      · exact .inr ⟨qx, qy, (spriteBit_cons ..).2 (.inl hr), hp⟩
      · rw [key qx qy hr] at hp
        exact .inr ⟨qx, qy, (spriteBit_cons ..).2 (.inr hr), hp⟩
    · rintro (h1 | ⟨qx, qy, hr, hp⟩)
      · exact .inl (.inl h1)
      · rcases (spriteBit_cons ..).1 hr with hr | hr
        · exact .inl (.inr ⟨qx, qy, hr, hp⟩)
        · exact .inr ⟨qx, qy, hr, by rw [key qx qy hr]; exact hp⟩

end Machine
end Sys2Proof
end

