-- ==== Sys2Proof/Laws/Memory.lean ====
section
/-! SUPPORT. The laws of memory: a read after a write, the canonical form, and the access primitives (R40 to R43). -/

namespace Sys2Proof
namespace Machine

/-! ### One byte -/

theorem Memory.read_cons (c : Host.Cell) (m : Memory) (a : Nat) :
    Memory.read (c :: m) a = if c.1 = a then c.2 else Memory.read m a := rfl

theorem Memory.read_erase_self (m : Memory) (a : Nat) : (m.erase a).read a = Memory.base a := by
  induction m with
  | nil => rfl
  | cons c m ih =>
    unfold Memory.erase at ih ⊢
    by_cases h : c.1 = a
    · simpa [h] using ih
    · simpa [h, Memory.read_cons] using ih

theorem Memory.read_erase_other {a c : Nat} (m : Memory) (h : c ≠ a) : (m.erase a).read c = m.read c := by
  induction m with
  | nil => rfl
  | cons d m ih =>
    unfold Memory.erase at ih ⊢
    by_cases hd : d.1 = a
    · have : d.1 ≠ c := fun e => h (e ▸ hd)
      simpa [hd, Memory.read_cons, this, h.symm] using ih
    · simp [hd, Memory.read_cons, ih]

theorem Memory.read_insert (m : Memory) (a : Nat) (b : Byte) (c : Nat) (h : c = a → m.read a = Memory.base a)
    (hm : ∀ d ∈ m, d.1 ≠ a) : (m.insert a b).read c = if c = a then b else m.read c := by
  induction m with
  | nil =>
    by_cases hc : c = a
    · simp [Memory.insert, Memory.read, hc]
    · simp [Memory.insert, Memory.read, hc, Ne.symm hc]
  | cons d m ih =>
    have hd : d.1 ≠ a := hm d (by simp)
    have hm' : ∀ e ∈ m, e.1 ≠ a := fun e he => hm e (by simp [he])
    unfold Memory.insert
    by_cases hlt : a < d.1
    · by_cases hc : c = a
      · simp [hlt, Memory.read_cons, hc]
      · simp [hlt, Memory.read_cons, hc, Ne.symm hc]
    · have ih' := ih (fun e => by simpa [Memory.read_cons, hd] using h e) hm'
      by_cases hc : c = a
      · subst hc
        simpa [hlt, Memory.read_cons, hd] using ih'
      · simp only [hlt, if_false, Memory.read_cons, hc, ih']

theorem Memory.mem_erase {m : Memory} {a : Nat} {d : Host.Cell} (h : d ∈ m.erase a) : d ∈ m ∧ d.1 ≠ a := by
  simpa [Memory.erase] using h

/-- A byte after a write (R41, R53): the written address holds the byte, every other one what it held. -/
theorem Memory.read_write (m : Memory) (a : Nat) (b : Byte) (c : Nat) :
    (m.write a b).read c = if c = a then b else m.read c := by
  unfold Memory.write
  by_cases hb : b = Memory.base a
  · by_cases hc : c = a
    · subst hc; simp [hb, Memory.read_erase_self]
    · simp [hb, hc, Memory.read_erase_other m hc]
  · rw [if_neg hb, Memory.read_insert _ _ _ _ (fun _ => Memory.read_erase_self m a)
      (fun d hd => (Memory.mem_erase hd).2)]
    by_cases hc : c = a
    · simp [hc]
    · simp [hc, Memory.read_erase_other m hc]

/-! ### The canonical form -/

theorem Memory.wf_nil : Memory.wf [] := by decide

theorem Memory.wf_erase {m : Memory} (h : m.wf) (a : Nat) : (m.erase a).wf :=
  ⟨h.1.filter _, fun c hc => h.2 c (Memory.mem_erase hc).1⟩

theorem Memory.mem_insert {m : Memory} {a : Nat} {b : Byte} {d : Host.Cell} (h : d ∈ m.insert a b) :
    d = (a, b) ∨ d ∈ m := by
  induction m with
  | nil => simpa [Memory.insert] using h
  | cons c m ih =>
    unfold Memory.insert at h
    split at h
    · simpa using h
    · rcases List.mem_cons.1 h with h | h
      · simp [h]
      · rcases ih h with h | h <;> simp [h]

theorem Memory.wf_insert {m : Memory} (h : m.wf) {a : Nat} {b : Byte} (ha : a ≤ Config.addrMax)
    (hb : b ≠ Memory.base a) (hm : ∀ d ∈ m, d.1 ≠ a) : (m.insert a b).wf := by
  refine ⟨?_, fun d hd => ?_⟩
  · obtain ⟨hp, -⟩ := h
    induction m with
    | nil => simp [Memory.insert]
    | cons c m ih =>
      obtain ⟨hc, hp⟩ := List.pairwise_cons.1 hp
      unfold Memory.insert
      split
      · rename_i hlt
        refine List.pairwise_cons.2 ⟨fun d hd => ?_, List.pairwise_cons.2 ⟨hc, hp⟩⟩
        rcases List.mem_cons.1 hd with rfl | hd
        · exact hlt
        · exact Nat.lt_trans hlt (hc d hd)
      · rename_i hlt
        have hca : c.1 < a := by have := hm c (by simp); omega
        refine List.pairwise_cons.2 ⟨fun d hd => ?_, ih (fun d hd => hm d (by simp [hd])) hp⟩
        rcases Memory.mem_insert hd with rfl | hd
        · exact hca
        · exact hc d hd
  · rcases Memory.mem_insert hd with rfl | hd
    · exact ⟨ha, hb⟩
    · exact h.2 d hd

/-- A write to a legal address keeps the canonical form. -/
theorem Memory.wf_write {m : Memory} (h : m.wf) {a : Nat} (ha : a ≤ Config.addrMax) (b : Byte) :
    (m.write a b).wf := by
  unfold Memory.write
  split
  · exact Memory.wf_erase h a
  · rename_i hb
    exact Memory.wf_insert (Memory.wf_erase h a) ha hb fun d hd => (Memory.mem_erase hd).2

/-! ### The access primitives -/

@[simp] theorem length_memRead (m : Memory) (addr n : Nat) : (memRead m addr n).length = n := by
  induction n generalizing addr with
  | zero => rfl
  | succ n ih => simp [memRead, ih]

/-- `MemRead` returns the bytes in ascending address order (R41). -/
theorem getElem_memRead (m : Memory) (addr n k : Nat) (h : k < (memRead m addr n).length) :
    (memRead m addr n)[k] = m.read (addr + k) := by
  induction n generalizing addr k with
  | zero => simp at h
  | succ n ih =>
    cases k with
    | zero => rfl
    | succ k =>
      simp only [memRead, List.getElem_cons_succ]
      rw [ih]
      congr 1; omega

/-- A byte after `MemWrite` (R41): the k-th written address holds the k-th byte, every other address what it held. -/
theorem read_memWrite (m : Memory) (addr : Nat) (bs : List Byte) (a : Nat) :
    (memWrite m addr bs).read a = if h : addr ≤ a ∧ a - addr < bs.length then bs[a - addr]'h.2 else m.read a := by
  induction bs generalizing m addr with
  | nil => simp [memWrite]
  | cons b bs ih =>
    rw [memWrite, ih, Memory.read_write]
    by_cases h1 : a = addr
    · subst h1
      have : ¬ (a + 1 ≤ a ∧ a - (a + 1) < bs.length) := by omega
      simp
    · by_cases h2 : addr + 1 ≤ a ∧ a - (addr + 1) < bs.length
      · have h3 : addr ≤ a ∧ a - addr < (b :: bs).length := by simp only [List.length_cons]; omega
        have h4 : a - addr = (a - (addr + 1)) + 1 := by omega
        rw [dif_pos h2, dif_pos h3]
        simp only [h4, List.getElem_cons_succ]
      · have h3 : ¬ (addr ≤ a ∧ a - addr < (b :: bs).length) := by simp only [List.length_cons]; omega
        rw [dif_neg h2, dif_neg h3, if_neg h1]

/-- `MemWrite` inside memory keeps the canonical form. -/
theorem wf_memWrite {m : Memory} (h : m.wf) {addr : Nat} {bs : List Byte}
    (ha : addr + bs.length ≤ Config.memSize) : (memWrite m addr bs).wf := by
  induction bs generalizing m addr with
  | nil => exact h
  | cons b bs ih =>
    simp only [List.length_cons] at ha
    exact ih (Memory.wf_write h (by simp only [Config.addrMax, Config.memSize] at *; omega) b)
      (by omega)

/-- The range check fails exactly where the highest address is above 0xFFF (R42). -/
theorem accessFault_eq_some {addr n a : Nat} :
    accessFault addr n = some a ↔ 1 ≤ n ∧ 0xFFF < addr + n - 1 ∧ a = addr + n - 1 := by
  unfold accessFault Config.addrMax
  split
  · rename_i h; simp only [Option.some.injEq]; omega
  · rename_i h; simp only [reduceCtorEq, false_iff]; omega

theorem accessFault_eq_none {addr n : Nat} : accessFault addr n = none ↔ n = 0 ∨ addr + n - 1 ≤ 0xFFF := by
  unfold accessFault Config.addrMax
  split
  · rename_i h; simp only [reduceCtorEq, false_iff]; omega
  · rename_i h; simp only [true_iff]; omega

end Machine
end Sys2Proof
end

