-- ==== Sys2Proof/Laws/Ops.lean ====
section
/-! SUPPORT. One lemma per shared operation that says everything it can do: the check phase, the register runs, the
inputs, the timers, and the shape of a `Cycle` and of a step (R81 to R90, R101, R103, R146, R180, R214). -/

namespace Sys2Proof
namespace Machine

/-! ### The check phase -/

@[simp] theorem commitUnless_none (i : Instr) (s t : State) : commitUnless none i s t = .next t := rfl

@[simp] theorem commitUnless_some (c : FaultCode) (info : Nat) (i : Instr) (s t : State) :
    commitUnless (some (c, info)) i s t = .next (takeFault c (some (encode i)) info s) := rfl

/-- A checked instruction ends in its fault or in its commit (R84 to R86). -/
theorem commitUnless_next {c : Option (FaultCode × Nat)} {i : Instr} {s t u : State}
    (h : commitUnless c i s t = .next u) :
    (c = none ∧ u = t) ∨ ∃ code info, c = some (code, info) ∧ u = takeFault code (some (encode i)) info s := by
  cases c with
  | none => exact .inl ⟨rfl, by simpa using h.symm⟩
  | some p =>
    obtain ⟨code, info⟩ := p
    exact .inr ⟨code, info, rfl, by simpa using h.symm⟩

theorem accessCheck_eq_none {s : State} {n : Nat} : accessCheck s n = none ↔ n = 0 ∨ s.i.toNat + n - 1 ≤ 0xFFF := by
  simp [accessCheck, accessFault_eq_none, State.ea]

theorem accessCheck_eq_some {s : State} {n : Nat} {c : FaultCode} {a : Nat} :
    accessCheck s n = some (c, a) ↔
      c = .addressFault ∧ 1 ≤ n ∧ 0xFFF < s.i.toNat + n - 1 ∧ a = s.i.toNat + n - 1 := by
  simp only [accessCheck, Option.map_eq_some_iff, Prod.mk.injEq, accessFault_eq_some, State.ea, Nat.add_zero]
  constructor
  · rintro ⟨a', ⟨h1, h2, rfl⟩, rfl, rfl⟩; exact ⟨rfl, h1, h2, rfl⟩
  · rintro ⟨rfl, h1, h2, rfl⟩; exact ⟨_, ⟨h1, h2, rfl⟩, rfl, rfl⟩

theorem underflowCheck_eq_none {s : State} : underflowCheck s = none ↔ s.stack ≠ [] := by
  unfold underflowCheck; split <;> simp_all

theorem underflowCheck_of_empty {s : State} (h : s.stack = []) : underflowCheck s = some (.stackUnderflow, 0) := by
  simp [underflowCheck, h]

/-- With an unbounded stack no call is refused (R15). -/
@[simp] theorem stackFull_unbounded (sp : Nat) : stackFull none sp = false := rfl

theorem overflowCheck_eq (s : State) :
    overflowCheck s = if 16 ≤ s.stack.length then some (.stackOverflow, 0) else none := by
  simp [overflowCheck, stackFull, params]

theorem keyCheck_eq_none {s : State} {x : RegIdx} : keyCheck s x = none ↔ (s.reg x).toNat ≤ 15 := by
  unfold keyCheck; split
  · rename_i h; simp only [reduceCtorEq, false_iff]; omega
  · rename_i h; simp only [true_iff]; omega

/-! ### Runs of registers (R145, R146) -/

@[simp] theorem length_regsUpTo (s : State) (x : RegIdx) : (s.regsUpTo x).length = x.val + 1 := by
  simp [State.regsUpTo]

theorem getElem_regsUpTo (s : State) (x : RegIdx) (k : Nat) (h : k < (s.regsUpTo x).length) :
    (s.regsUpTo x)[k] = s.reg ⟨k, by simp at h; omega⟩ := by
  simp [State.regsUpTo, State.reg]

/-- Registers k, k + 1, ... receive the bytes of the list, the others keep theirs. -/
theorem getElem_setRegsFrom (v : Vector Byte 16) (k : Nat) (bs : List Byte) (q : Nat) (hq : q < 16) :
    (setRegsFrom v k bs)[q] = if h : k ≤ q ∧ q - k < bs.length then bs[q - k]'h.2 else v[q] := by
  induction bs generalizing v k with
  | nil => simp [setRegsFrom]
  | cons b bs ih =>
    rw [setRegsFrom, ih, Vector.getElem_setIfInBounds]
    by_cases h1 : k = q
    · subst h1
      have : ¬ (k + 1 ≤ k ∧ k - (k + 1) < bs.length) := by omega
      simp
    · by_cases h2 : k + 1 ≤ q ∧ q - (k + 1) < bs.length
      · have h3 : k ≤ q ∧ q - k < (b :: bs).length := by simp only [List.length_cons]; omega
        have h4 : q - k = (q - (k + 1)) + 1 := by omega
        rw [dif_pos h2, dif_pos h3]
        simp only [h4, List.getElem_cons_succ]
      · have h3 : ¬ (k ≤ q ∧ q - k < (b :: bs).length) := by simp only [List.length_cons]; omega
        rw [dif_neg h2, dif_neg h3, if_neg h1]

/-! ### Inputs and timers -/

theorem State.keys_of_laid_out {s : State} {ks : Keypad} {rest : List Keypad} (h : s.keysIn = ks :: rest) :
    s.keys = ks := by
  simp [State.keys, h]

theorem State.rnd_of_laid_out {s : State} {b : Byte} {rest : List Byte} (h : s.rndIn = b :: rest) : s.rnd = b := by
  simp [State.rnd, h]

/-- A timer counts down by 1 and stays at 0 (R214). -/
theorem countDown_toNat (b : Byte) : (countDown b).toNat = b.toNat - 1 := by
  unfold countDown
  split
  · omega
  · have h := b.isLt
    have h1 : (1 : Byte).toNat = 1 := rfl
    rw [BitVec.toNat_sub, h1]
    omega

@[simp] theorem flagByte_toNat (c : Bool) : (flagByte c).toNat = if c then 1 else 0 := by
  cases c <;> rfl

/-! ### The shape of a `Cycle` and of a step -/

/-- What a `Cycle` does, by run state and outcome of fetch and decode (R80, R81, R83, R86). -/
theorem cycle_next {s t : State} (h : cycle s = .next t) :
    (s.run ≠ .running ∧ t = s) ∨
    (s.run = .running ∧ 0xFFF ≤ s.pc.toNat ∧ t = takeFault .addressFault none (s.pc.toNat + 1) s) ∨
    (s.run = .running ∧ s.pc.toNat < 0xFFF ∧ decodeWord (fetchWord s.mem s.pc.toNat) = none ∧
      t = takeFault .decodeFault (some (fetchWord s.mem s.pc.toNat)) (fetchWord s.mem s.pc.toNat).toNat s) ∨
    ∃ i, s.run = .running ∧ s.pc.toNat < 0xFFF ∧ decodeWord (fetchWord s.mem s.pc.toNat) = some i ∧
      exec i s = .next t := by
  unfold cycle at h
  split at h
  · rename_i hr
    unfold runCycle at h
    split at h
    · rename_i a ha
      obtain ⟨-, h2, rfl⟩ := accessFault_eq_some.1 ha
      exact .inr (.inl ⟨hr, by omega, by simpa using h.symm⟩)
    · rename_i ha
      have hpc : s.pc.toNat < 0xFFF := by have := accessFault_eq_none.1 ha; omega
      split at h
      · rename_i hd
        exact .inr (.inr (.inl ⟨hr, hpc, hd, by simpa using h.symm⟩))
      · rename_i i hd
        exact .inr (.inr (.inr ⟨i, hr, hpc, hd, h⟩))
  · rename_i hr
    exact .inl ⟨by simp [hr], by simpa using h.symm⟩
  · rename_i hr
    exact .inl ⟨by simp [hr], by simpa using h.symm⟩

/-- A step is the first operation of the schedule, or a `Cycle` (R26). -/
theorem step_eq (s : State) :
    step s = (match s.schedule with
      | [] => cycle s
      | op :: rest => perform op { s with schedule := rest }) := rfl

end Machine
end Sys2Proof
end

