-- ==== Sys2Proof/Laws/PerInstr.lean ====
section
/-! SUPPORT. Statements made of every instruction as syntax, one lemma per constructor. Family EncodeMatchesRow: the
word of an instruction has the fixed digits of its row of the opcode map (R66, R68), whatever its operands. -/

namespace Sys2Proof

/-! ### A format under the masks of its rows -/

theorem formatA_and (op nnn : Nat) : formatA op nnn &&& 0xF000 = BitVec.ofNat 4 op ++ 0#12 := by
  have h : (0xF000 : Word) = BitVec.allOnes 4 ++ 0#12 := by decide
  rw [h, formatA, BitVec.and_append, BitVec.and_allOnes, BitVec.and_zero]

theorem formatXK_and_F000 (op : Nat) (x : RegIdx) (kk : Byte) :
    formatXK op x kk &&& 0xF000 = BitVec.ofNat 4 op ++ 0#4 ++ 0#8 := by
  have h : (0xF000 : Word) = BitVec.allOnes 4 ++ 0#4 ++ 0#8 := by decide
  rw [h, formatXK, BitVec.and_append, BitVec.and_append, BitVec.and_allOnes, BitVec.and_zero, BitVec.and_zero]

theorem formatXK_and_F0FF (op : Nat) (x : RegIdx) (kk : Byte) :
    formatXK op x kk &&& 0xF0FF = BitVec.ofNat 4 op ++ 0#4 ++ kk := by
  have h : (0xF0FF : Word) = BitVec.allOnes 4 ++ 0#4 ++ BitVec.allOnes 8 := by decide
  rw [h, formatXK, BitVec.and_append, BitVec.and_append, BitVec.and_allOnes, BitVec.and_allOnes, BitVec.and_zero]

theorem formatXY_and_F00F (op : Nat) (x y : RegIdx) (n : Nat) :
    formatXY op x y n &&& 0xF00F = BitVec.ofNat 4 op ++ 0#4 ++ 0#4 ++ BitVec.ofNat 4 n := by
  have h : (0xF00F : Word) = BitVec.allOnes 4 ++ 0#4 ++ 0#4 ++ BitVec.allOnes 4 := by decide
  rw [h, formatXY, BitVec.and_append, BitVec.and_append, BitVec.and_append, BitVec.and_allOnes, BitVec.and_allOnes,
    BitVec.and_zero, BitVec.and_zero]

theorem formatXY_and_F000 (op : Nat) (x y : RegIdx) (n : Nat) :
    formatXY op x y n &&& 0xF000 = BitVec.ofNat 4 op ++ 0#4 ++ 0#4 ++ 0#4 := by
  have h : (0xF000 : Word) = BitVec.allOnes 4 ++ 0#4 ++ 0#4 ++ 0#4 := by decide
  rw [h, formatXY, BitVec.and_append, BitVec.and_append, BitVec.and_append, BitVec.and_allOnes, BitVec.and_zero,
    BitVec.and_zero, BitVec.and_zero]

namespace Laws
namespace EncodeMatchesRow

/-- Some row of the opcode map has the instruction's mnemonic, and the instruction's word has its fixed digits. -/
def Statement (i : Instr) : Prop := ∃ r ∈ opcodeRows, r.mnemonic = i.mnemonic ∧ encode i &&& r.mask = r.pattern

theorem cls : Statement .cls :=
  ⟨⟨"CLS", 0xFFFF, 0x00E0⟩, by decide, rfl, by decide⟩

theorem ret : Statement .ret :=
  ⟨⟨"RET", 0xFFFF, 0x00EE⟩, by decide, rfl, by decide⟩

theorem jp (nnn : Nat) : Statement (.jp nnn) :=
  ⟨⟨"JP_nnn", 0xF000, 0x1000⟩, by decide, rfl, (formatA_and ..).trans (by decide)⟩

theorem call (nnn : Nat) : Statement (.call nnn) :=
  ⟨⟨"CALL_nnn", 0xF000, 0x2000⟩, by decide, rfl, (formatA_and ..).trans (by decide)⟩

theorem seImm (x : RegIdx) (kk : Byte) : Statement (.seImm x kk) :=
  ⟨⟨"SE_Vx__kk", 0xF000, 0x3000⟩, by decide, rfl, (formatXK_and_F000 ..).trans (by decide)⟩

theorem sneImm (x : RegIdx) (kk : Byte) : Statement (.sneImm x kk) :=
  ⟨⟨"SNE_Vx__kk", 0xF000, 0x4000⟩, by decide, rfl, (formatXK_and_F000 ..).trans (by decide)⟩

theorem seReg (x y : RegIdx) : Statement (.seReg x y) :=
  ⟨⟨"SE_Vx__Vy", 0xF00F, 0x5000⟩, by decide, rfl, (formatXY_and_F00F ..).trans (by decide)⟩

theorem ldImm (x : RegIdx) (kk : Byte) : Statement (.ldImm x kk) :=
  ⟨⟨"LD_Vx__kk", 0xF000, 0x6000⟩, by decide, rfl, (formatXK_and_F000 ..).trans (by decide)⟩

theorem addImm (x : RegIdx) (kk : Byte) : Statement (.addImm x kk) :=
  ⟨⟨"ADD_Vx__kk", 0xF000, 0x7000⟩, by decide, rfl, (formatXK_and_F000 ..).trans (by decide)⟩

theorem ldReg (x y : RegIdx) : Statement (.ldReg x y) :=
  ⟨⟨"LD_Vx__Vy", 0xF00F, 0x8000⟩, by decide, rfl, (formatXY_and_F00F ..).trans (by decide)⟩

theorem orReg (x y : RegIdx) : Statement (.orReg x y) :=
  ⟨⟨"OR_Vx__Vy", 0xF00F, 0x8001⟩, by decide, rfl, (formatXY_and_F00F ..).trans (by decide)⟩

theorem andReg (x y : RegIdx) : Statement (.andReg x y) :=
  ⟨⟨"AND_Vx__Vy", 0xF00F, 0x8002⟩, by decide, rfl, (formatXY_and_F00F ..).trans (by decide)⟩

theorem xorReg (x y : RegIdx) : Statement (.xorReg x y) :=
  ⟨⟨"XOR_Vx__Vy", 0xF00F, 0x8003⟩, by decide, rfl, (formatXY_and_F00F ..).trans (by decide)⟩

theorem addReg (x y : RegIdx) : Statement (.addReg x y) :=
  ⟨⟨"ADD_Vx__Vy", 0xF00F, 0x8004⟩, by decide, rfl, (formatXY_and_F00F ..).trans (by decide)⟩

theorem sub (x y : RegIdx) : Statement (.sub x y) :=
  ⟨⟨"SUB_Vx__Vy", 0xF00F, 0x8005⟩, by decide, rfl, (formatXY_and_F00F ..).trans (by decide)⟩

theorem shr (x y : RegIdx) : Statement (.shr x y) :=
  ⟨⟨"SHR_Vx", 0xF00F, 0x8006⟩, by decide, rfl, (formatXY_and_F00F ..).trans (by decide)⟩

theorem subn (x y : RegIdx) : Statement (.subn x y) :=
  ⟨⟨"SUBN_Vx__Vy", 0xF00F, 0x8007⟩, by decide, rfl, (formatXY_and_F00F ..).trans (by decide)⟩

theorem shl (x y : RegIdx) : Statement (.shl x y) :=
  ⟨⟨"SHL_Vx", 0xF00F, 0x800E⟩, by decide, rfl, (formatXY_and_F00F ..).trans (by decide)⟩

theorem sneReg (x y : RegIdx) : Statement (.sneReg x y) :=
  ⟨⟨"SNE_Vx__Vy", 0xF00F, 0x9000⟩, by decide, rfl, (formatXY_and_F00F ..).trans (by decide)⟩

theorem ldI (nnn : Nat) : Statement (.ldI nnn) :=
  ⟨⟨"LD_I__nnn", 0xF000, 0xA000⟩, by decide, rfl, (formatA_and ..).trans (by decide)⟩

theorem jpV0 (nnn : Nat) : Statement (.jpV0 nnn) :=
  ⟨⟨"JP_V0__nnn", 0xF000, 0xB000⟩, by decide, rfl, (formatA_and ..).trans (by decide)⟩

theorem rnd (x : RegIdx) (kk : Byte) : Statement (.rnd x kk) :=
  ⟨⟨"RND_Vx__kk", 0xF000, 0xC000⟩, by decide, rfl, (formatXK_and_F000 ..).trans (by decide)⟩

theorem drw (x y : RegIdx) (n : Nat) : Statement (.drw x y n) :=
  ⟨⟨"DRW_Vx__Vy__n", 0xF000, 0xD000⟩, by decide, rfl, (formatXY_and_F000 ..).trans (by decide)⟩

theorem skp (x : RegIdx) : Statement (.skp x) :=
  ⟨⟨"SKP_Vx", 0xF0FF, 0xE09E⟩, by decide, rfl, (formatXK_and_F0FF ..).trans (by decide)⟩

theorem sknp (x : RegIdx) : Statement (.sknp x) :=
  ⟨⟨"SKNP_Vx", 0xF0FF, 0xE0A1⟩, by decide, rfl, (formatXK_and_F0FF ..).trans (by decide)⟩

theorem ldVxDt (x : RegIdx) : Statement (.ldVxDt x) :=
  ⟨⟨"LD_Vx__DT", 0xF0FF, 0xF007⟩, by decide, rfl, (formatXK_and_F0FF ..).trans (by decide)⟩

theorem ldVxK (x : RegIdx) : Statement (.ldVxK x) :=
  ⟨⟨"LD_Vx__K", 0xF0FF, 0xF00A⟩, by decide, rfl, (formatXK_and_F0FF ..).trans (by decide)⟩

theorem ldDtVx (x : RegIdx) : Statement (.ldDtVx x) :=
  ⟨⟨"LD_DT__Vx", 0xF0FF, 0xF015⟩, by decide, rfl, (formatXK_and_F0FF ..).trans (by decide)⟩

theorem ldStVx (x : RegIdx) : Statement (.ldStVx x) :=
  ⟨⟨"LD_ST__Vx", 0xF0FF, 0xF018⟩, by decide, rfl, (formatXK_and_F0FF ..).trans (by decide)⟩

theorem addI (x : RegIdx) : Statement (.addI x) :=
  ⟨⟨"ADD_I__Vx", 0xF0FF, 0xF01E⟩, by decide, rfl, (formatXK_and_F0FF ..).trans (by decide)⟩

theorem ldF (x : RegIdx) : Statement (.ldF x) :=
  ⟨⟨"LD_F__Vx", 0xF0FF, 0xF029⟩, by decide, rfl, (formatXK_and_F0FF ..).trans (by decide)⟩

theorem ldB (x : RegIdx) : Statement (.ldB x) :=
  ⟨⟨"LD_B__Vx", 0xF0FF, 0xF033⟩, by decide, rfl, (formatXK_and_F0FF ..).trans (by decide)⟩

theorem stRegs (x : RegIdx) : Statement (.stRegs x) :=
  ⟨⟨"LD__I___Vx", 0xF0FF, 0xF055⟩, by decide, rfl, (formatXK_and_F0FF ..).trans (by decide)⟩

theorem ldRegs (x : RegIdx) : Statement (.ldRegs x) :=
  ⟨⟨"LD_Vx___I", 0xF0FF, 0xF065⟩, by decide, rfl, (formatXK_and_F0FF ..).trans (by decide)⟩

end EncodeMatchesRow
end Laws
end Sys2Proof
end

