-- ==== Sys2Proof/Tests/Slice0.lean ====
section
/-! SUPPORT. Tests of the model: the smoke test of WellFormed, words written out from spec/30_encoding.md R68, the vectors
of spec/95_test_vectors.md (named by their ids), each one step, and for every statement with hypotheses a witness that
meets them. -/

namespace Sys2Proof
namespace Tests

open Machine

/-! ### WellFormed: each check refuses an ill-formed term (R61) -/

theorem test_wf_refuses_jp : (Instr.jp 4096).wf = false := by decide
theorem test_wf_refuses_call : (Instr.call 4096).wf = false := by decide
theorem test_wf_refuses_ldI : (Instr.ldI 4096).wf = false := by decide
theorem test_wf_refuses_jpV0 : (Instr.jpV0 0x10FE).wf = false := by decide
theorem test_wf_refuses_drw : (Instr.drw 0 0 16).wf = false := by decide
theorem test_wf_admits : (Instr.jp 4095).wf = true ∧ (Instr.drw 15 15 15).wf = true ∧ Instr.ret.wf = true := by decide

/-! ### Decoding: a word of every row, written from its pattern in R68 -/

theorem test_decode_control :
    decodeWord 0x00EE = some .ret ∧ decodeWord 0x1ABC = some (.jp 0xABC) ∧ decodeWord 0x2DEF = some (.call 0xDEF) ∧
    decodeWord 0x3A5C = some (.seImm 0xA 0x5C) ∧ decodeWord 0x4A5C = some (.sneImm 0xA 0x5C) ∧
    decodeWord 0x5120 = some (.seReg 1 2) ∧ decodeWord 0x9120 = some (.sneReg 1 2) ∧
    decodeWord 0xBFFF = some (.jpV0 0xFFF) := by decide

theorem test_decode_register :
    decodeWord 0x6FFF = some (.ldImm 0xF 0xFF) ∧ decodeWord 0x7201 = some (.addImm 2 0x01) ∧
    decodeWord 0xC10F = some (.rnd 1 0x0F) := by decide

theorem test_decode_family8 :
    decodeWord 0x8AB0 = some (.ldReg 0xA 0xB) ∧ decodeWord 0x8AB1 = some (.orReg 0xA 0xB) ∧
    decodeWord 0x8AB2 = some (.andReg 0xA 0xB) ∧ decodeWord 0x8AB3 = some (.xorReg 0xA 0xB) ∧
    decodeWord 0x8AB4 = some (.addReg 0xA 0xB) ∧ decodeWord 0x8AB5 = some (.sub 0xA 0xB) ∧
    decodeWord 0x8AB6 = some (.shr 0xA 0xB) ∧ decodeWord 0x8AB7 = some (.subn 0xA 0xB) ∧
    decodeWord 0x8ABE = some (.shl 0xA 0xB) := by decide

theorem test_decode_index_and_display :
    decodeWord 0x00E0 = some .cls ∧ decodeWord 0xA123 = some (.ldI 0x123) ∧
    decodeWord 0xDAB5 = some (.drw 0xA 0xB 5) := by decide

theorem test_decode_keys :
    decodeWord 0xEA9E = some (.skp 0xA) ∧ decodeWord 0xEAA1 = some (.sknp 0xA) := by decide

theorem test_decode_familyF :
    decodeWord 0xF007 = some (.ldVxDt 0) ∧ decodeWord 0xF10A = some (.ldVxK 1) ∧
    decodeWord 0xF215 = some (.ldDtVx 2) ∧ decodeWord 0xF318 = some (.ldStVx 3) ∧
    decodeWord 0xF41E = some (.addI 4) ∧ decodeWord 0xF529 = some (.ldF 5) ∧
    decodeWord 0xF633 = some (.ldB 6) ∧ decodeWord 0xF755 = some (.stRegs 7) ∧
    decodeWord 0xF865 = some (.ldRegs 8) := by decide

/-- D-DEC-2, D-DEC-4, D-DEC-5, D-SER-4, D-SNER-3, D-ILL-8, D-ILL-E, D-ILL-F. -/
theorem test_decode_illegal :
    [decodeWord 0x00E1, decodeWord 0x00FE, decodeWord 0x0000, decodeWord 0x0123, decodeWord 0x8AB8,
      decodeWord 0x8ABF, decodeWord 0xF075, decodeWord 0x5121, decodeWord 0x912F, decodeWord 0x8128,
      decodeWord 0xE19F, decodeWord 0xF100] = List.replicate 12 none := by decide

/-- The bytes of the program P1 of the spec, most significant byte first. -/
theorem test_encode_bytes :
    encodeBytes (.ldImm 0xA 2) ++ encodeBytes (.ldImm 0xB 3) ++ encodeBytes (.addReg 0xA 0xB) =
      [0x6A, 0x02, 0x6B, 0x03, 0x8A, 0xB4] := by decide

theorem test_table_word :
    decodeTableWord 16 0x8AB4 = some (.addReg 0xA 0xB) ∧ decodeTableWord 16 0x00E0 = some .cls ∧
      decodeTableWord 16 0x5121 = none := by decide

theorem test_opcode_rows : opcodeRows.length = 34 := by decide

/-! ### Parameters and reset -/

theorem test_params_legal : params.legal := by decide

/-- Glyphs 0, 1, A and F of the table of R47, at the addresses of R46. -/
theorem test_font :
    memRead State.reset.mem 0x00 5 = [0xF0, 0x90, 0x90, 0x90, 0xF0] ∧
    memRead State.reset.mem 0x05 5 = [0x20, 0x60, 0x20, 0x20, 0x70] ∧
    memRead State.reset.mem 0x32 5 = [0xF0, 0x90, 0xF0, 0x90, 0x90] ∧
    memRead State.reset.mem 0x4B 7 = [0xF0, 0x80, 0xF0, 0x80, 0x80, 0, 0] := by decide

/-- D-RST-2: after a `Reset` the first `Cycle` takes `DecodeFault`. -/
theorem test_reset_then_cycle :
    step State.reset = .next (haltedWith ⟨.decodeFault, 0x200, some 0x0000, 0⟩ State.reset) := by rfl

/-! ### One instruction, one step -/

/-- Does an outcome answer a next state with a property? -/
def nextHas (o : Result) (p : State → Bool) : Bool :=
  match o with
  | .next t => p t
  | .fault _ => false
  | .refused _ => false

theorem exists_of_nextHas {o : Result} {p : State → Bool} (h : nextHas o p = true) :
    ∃ t, o = .next t ∧ p t = true := by
  cases o with
  | next t => exact ⟨t, rfl, h⟩
  | fault r => exact absurd h (by simp [nextHas])
  | refused r => exact absurd h (by simp [nextHas])

/-- One step with the word at `PC`: does the next state have a property? -/
def runs (s : State) (w : Nat) (p : State → Bool) : Bool := nextHas (step (s.withFetchWord 16 w)) p

/-- The start state of the vectors with two registers set. -/
def start (x : RegIdx) (vx : Byte) (y : RegIdx) (vy : Byte) : State := (State.reset.setReg x vx).setReg y vy

/-- The next state has faulted with a record, and stands where it was. -/
def faulted (code : FaultCode) (pc : Word) (word : Option Word) (info : Nat) (t : State) : Bool :=
  t.run == .halted && t.fault == some ⟨code, pc, word, info⟩ && t.pc == pc

/-- D-RET-1. -/
theorem test_ret : runs { State.reset with stack := [0x206], pc := 0x300 } 0x00EE
    (fun t => t.pc == 0x206 && t.stack == []) = true := by decide
/-- D-RET-2. -/
theorem test_ret_underflow : runs State.reset 0x00EE (faulted .stackUnderflow 0x200 (some 0x00EE) 0) = true := by
  decide
/-- D-JP-3. -/
theorem test_jp : runs State.reset 0x1FFF (fun t => t.pc == 0xFFF) = true := by decide
/-- D-CALL-1. -/
theorem test_call : runs State.reset 0x2300 (fun t => t.pc == 0x300 && t.stack == [0x202]) = true := by decide
/-- D-CALL-2. -/
theorem test_call_overflow : runs { State.reset with stack := List.replicate 16 0x202 } 0x2300
    (fun t => faulted .stackOverflow 0x200 (some 0x2300) 0 t && t.stack == List.replicate 16 0x202) = true := by decide
/-- D-SE-1. -/
theorem test_seImm_skips : runs (start 3 0x2A 0 0) 0x332A (fun t => t.pc == 0x204) = true := by decide
/-- D-SE-2. -/
theorem test_seImm_falls : runs (start 3 0x2B 0 0) 0x332A (fun t => t.pc == 0x202) = true := by decide
/-- D-SNE-1. -/
theorem test_sneImm_falls : runs (start 3 0x2A 0 0) 0x432A (fun t => t.pc == 0x202) = true := by decide
/-- D-SNE-2. -/
theorem test_sneImm_skips : runs State.reset 0x432A (fun t => t.pc == 0x204) = true := by decide
/-- D-SER-1. -/
theorem test_seReg_skips : runs (start 1 7 2 7) 0x5120 (fun t => t.pc == 0x204) = true := by decide
/-- D-SER-2. -/
theorem test_seReg_falls : runs (start 1 7 2 8) 0x5120 (fun t => t.pc == 0x202) = true := by decide
/-- D-SNER-1. -/
theorem test_sneReg_skips : runs (start 1 7 2 8) 0x9120 (fun t => t.pc == 0x204) = true := by decide
/-- D-SNER-2. -/
theorem test_sneReg_falls : runs (start 1 7 2 7) 0x9120 (fun t => t.pc == 0x202) = true := by decide
/-- D-JPV-2: the sum is not masked. -/
theorem test_jpV0 : runs (start 0 0xFF 1 0) 0xBFFF (fun t => t.pc == 0x10FE) = true := by decide

/-- D-LD-2: `VF` is an ordinary register. -/
theorem test_ldImm : runs State.reset 0x6FFF (fun t => t.reg VF == 0xFF && t.pc == 0x202) = true := by decide
/-- D-ADDI-1. -/
theorem test_addImm : runs (start 2 0xFF VF 0) 0x7201 (fun t => t.reg 2 == 0 && t.reg VF == 0) = true := by decide
/-- D-MOV-1. -/
theorem test_ldReg : runs (start 1 9 0 0) 0x8010 (fun t => t.reg 0 == 9 && t.reg 1 == 9) = true := by decide
/-- D-OR-1. -/
theorem test_orReg : runs ((start 0 0xF0 1 0x0F).setReg VF 1) 0x8011
    (fun t => t.reg 0 == 0xFF && t.reg VF == 1) = true := by decide
/-- D-AND-1. -/
theorem test_andReg : runs ((start 0 0xF3 1 0x3F).setReg VF 1) 0x8012
    (fun t => t.reg 0 == 0x33 && t.reg VF == 1) = true := by decide
/-- D-XOR-1. -/
theorem test_xorReg : runs ((start 0 0xFF 1 0x0F).setReg VF 1) 0x8013
    (fun t => t.reg 0 == 0xF0 && t.reg VF == 1) = true := by decide
/-- Table of 2.2, row FF 01: carry. -/
theorem test_addReg_carry : runs (start 1 0xFF 2 0x01) 0x8124
    (fun t => t.reg 1 == 0 && t.reg VF == 1 && t.reg 2 == 1) = true := by decide
/-- Table of 2.2, x = F, vf = 03, vy = 02: the flag stays. -/
theorem test_addReg_into_VF : runs (start VF 0x03 2 0x02) 0x8F24 (fun t => t.reg VF == 0) = true := by decide
/-- Table of 2.2, row 10 20. -/
theorem test_sub_borrow : runs (start 1 0x10 2 0x20) 0x8125 (fun t => t.reg 1 == 0xF0 && t.reg VF == 0) = true := by
  decide
/-- Table of 2.2, row FF FF: equal operands give 0. -/
theorem test_sub_equal : runs (start 1 0xFF 2 0xFF) 0x8125 (fun t => t.reg 1 == 0 && t.reg VF == 0) = true := by
  decide
/-- Table of 2.2, row 81 7F: `V[x]` is shifted, not `V[y]`. -/
theorem test_shr : runs (start 1 0x81 2 0x7F) 0x8126
    (fun t => t.reg 1 == 0x40 && t.reg VF == 1 && t.reg 2 == 0x7F) = true := by decide
/-- Table of 2.2, row 05 AA. -/
theorem test_subn : runs (start 1 0x05 2 0xAA) 0x8127 (fun t => t.reg 1 == 0xA5 && t.reg VF == 1) = true := by decide
/-- Table of 2.2, y = F, vx = 05, vf = 01: the old `VF` is the operand. -/
theorem test_subn_from_VF : runs (start 1 0x05 VF 0x01) 0x81F7
    (fun t => t.reg 1 == 0xFC && t.reg VF == 0) = true := by decide
/-- Table of 2.2, row 81 7F. -/
theorem test_shl : runs (start 1 0x81 2 0x7F) 0x812E (fun t => t.reg 1 == 0x02 && t.reg VF == 1) = true := by decide
/-- D-RND-1. -/
theorem test_rnd_drawn : runs { State.reset with rndIn := [0xA7, 0x5C] } 0xC10F
    (fun t => t.reg 1 == 0x07 && t.rndIn == [0x5C]) = true := by decide

/-- D-LDI-2. -/
theorem test_ldI : runs State.reset 0xAFFF (fun t => t.i == 0x0FFF) = true := by decide
/-- D-ADDIX-2: no wrap at 12 bits, no flag. -/
theorem test_addI : runs ((start 2 1 0 0).setI 0x0FFF) 0xF21E (fun t => t.i == 0x1000 && t.reg VF == 0) = true := by
  decide
/-- D-ADDIX-3: wrap at 16 bits. -/
theorem test_addI_wraps : runs ((start 2 2 0 0).setI 0xFFFF) 0xF21E (fun t => t.i == 0x0001) = true := by decide
/-- D-FONT-1. -/
theorem test_ldF : runs (start 0 0x0A 1 0) 0xF029 (fun t => t.i == 0x0032) = true := by decide
/-- D-FONT-3: no masking. -/
theorem test_ldF_beyond : runs (start 0 0xFF 1 0) 0xF029 (fun t => t.i == 0x04FB) = true := by decide
/-- D-BCD-1. -/
theorem test_ldB : runs ((start 0 254 1 0).setI 0x300) 0xF033
    (fun t => memRead t.mem 0x300 4 == [2, 5, 4, 0] && t.i == 0x300) = true := by decide
/-- D-BCD-4: no byte is written. -/
theorem test_ldB_fault : runs ({ start 1 0xFF 0 0 with pc := 0x202 }.setI 0xFFE) 0xF133
    (fun t => faulted .addressFault 0x202 (some 0xF133) 0x1000 t && memRead t.mem 0xFFE 2 == [0, 0]) = true := by
  decide
/-- D-ST-1, D-ST-5: by index, not by value. -/
theorem test_stRegs : runs (((start 0 1 1 2).setReg 2 9).setI 0x400) 0xF255
    (fun t => memRead t.mem 0x400 5 == [1, 2, 9, 0, 0] && t.i == 0x400) = true := by decide
/-- D-ST-4. -/
theorem test_stRegs_fault : runs ((start 0 1 1 2).setI 0xFF1) 0xFF55
    (fun t => faulted .addressFault 0x200 (some 0xFF55) 0x1000 t && t.mem.read 0xFF1 == 0) = true := by decide
/-- D-LDR-2. -/
theorem test_ldRegs : runs (start 5 0xEE 0 0) 0xF465
    (fun t => t.reg 0 == 0xF0 && t.reg 1 == 0x90 && t.reg 4 == 0xF0 && t.reg 5 == 0xEE) = true := by decide
/-- D-LDR-3: no register is loaded. -/
theorem test_ldRegs_fault : runs ((start 0 0xAA 1 0).setI 0xFF8) 0xF865
    (fun t => faulted .addressFault 0x200 (some 0xF865) 0x1000 t && t.reg 0 == 0xAA) = true := by decide

/-- The start state with one pixel on and one byte at 0x300, where `I` points. -/
def onePixel (cx : Fin 64) (cy : Fin 32) (b : Byte) : State :=
  { State.reset with i := 0x300, mem := Memory.write [] 0x300 b, fb := Framebuffer.blank.setPixel cx cy true }

/-- D-CLS-1. -/
theorem test_cls : runs ((onePixel 63 31 0).setReg VF 1) 0x00E0
    (fun t => t.fb == Framebuffer.blank && t.reg VF == 1) = true := by decide
/-- D-DRW-8: a collision. -/
theorem test_drw_collides : runs (onePixel 0 0 0xC0) 0xD001
    (fun t => !t.fb.pixel 0 0 && t.fb.pixel 1 0 && t.reg VF == 1) = true := by decide
/-- D-DRW-3: columns 63, 0 to 6 of the row. -/
theorem test_drw_wraps : runs ((({ State.reset with mem := Memory.write [] 0x300 0xFF }).setReg 0 63).setI 0x300) 0xD011
    (fun t => t.fb.pixel 63 0 && t.fb.pixel 0 0 && t.fb.pixel 6 0 && !t.fb.pixel 7 0 && !t.fb.pixel 62 0 &&
      t.reg VF == 0) = true := by decide

/-- The levels of a keypad on which key 10 alone is down. -/
def keyTenDown : Keypad := (Vector.replicate 16 false).set 10 true

/-- D-SKP-1. -/
theorem test_skp_skips : runs { start 1 0x0A 0 0 with keysIn := [keyTenDown] } 0xE19E
    (fun t => t.pc == 0x204 && t.keysIn == []) = true := by decide
/-- D-SKP-3. -/
theorem test_skp_fault : runs (start 1 0x10 0 0) 0xE19E (faulted .keyIndexFault 0x200 (some 0xE19E) 0x10) = true := by
  decide
/-- D-SKNP-2. -/
theorem test_sknp_falls : runs { start 1 0x0A 0 0 with keysIn := [keyTenDown] } 0xE1A1 (fun t => t.pc == 0x202) = true := by
  decide
/-- D-SKNP-3. -/
theorem test_sknp_fault : runs (start 1 0xFF 0 0) 0xE1A1 (faulted .keyIndexFault 0x200 (some 0xE1A1) 0xFF) = true := by
  decide
/-- D-KEY-1. -/
theorem test_ldVxK : runs State.reset 0xF30A
    (fun t => t.awaiting && t.kreg == 3 && t.pc == 0x202 && t.reg 3 == 0) = true := by decide
/-- D-TMR-2. -/
theorem test_ldVxDt : runs { State.reset with dt := 0x1E } 0xF407 (fun t => t.reg 4 == 0x1E && t.dt == 0x1E) = true := by
  decide
/-- D-TMR-1. -/
theorem test_ldDtVx : runs (start 4 60 0 0) 0xF415 (fun t => t.dt == 60 && t.st == 0) = true := by decide
/-- D-TMR-3. -/
theorem test_ldStVx : runs (start 0 2 1 0) 0xF018 (fun t => t.st == 2 && t.tone && t.dt == 0) = true := by decide

/-! ### The host operations -/

/-- D-KEY-3. -/
theorem test_keyPress_ends_wait :
    nextHas (step { State.reset with run := .awaitingKey, kreg := 3, pc := 0x202, schedule := [.keyPress 7] })
      (fun t => t.reg 3 == 7 && t.run == .running && t.pc == 0x202) = true := by decide
/-- D-TICK-5. -/
theorem test_tick_while_halted :
    nextHas (step { State.reset with run := .halted, st := 5, schedule := [.tick] })
      (fun t => t.st == 4 && t.dt == 0 && t.halted) = true := by decide
/-- D-LOAD-3: a one-byte image. -/
theorem test_load_one_byte :
    nextHas (step { State.reset with schedule := [.load [0x12]] })
      (fun t => memRead t.mem 0x200 2 == [0x12, 0x00] && t.loadResult == some .ok && t.pc == 0x200) = true := by decide
/-- D-LOAD-4: a load leaves `HALTED`. -/
theorem test_load_while_halted :
    nextHas (step { haltedWith ⟨.stackUnderflow, 0x200, some 0x00EE, 0⟩ State.reset with schedule := [.load [0x6A, 0x02]] })
      (fun t => t.run == .running && t.fault == none) = true := by decide
/-- D-JP-3, second `Cycle`: the fetch faults, without a word. -/
theorem test_fetch_fault :
    nextHas (step { State.reset with pc := 0xFFF }) (faulted .addressFault 0xFFF none 0x1000) = true := by decide
/-- The output `FAULT` of D-RET-2, with the number of R200. -/
theorem test_faultOut :
    (haltedWith ⟨.stackUnderflow, 0x200, some 0x00EE, 0⟩ State.reset).faultOut = some (2, 0x200, some 0x00EE, 0) := by
  decide

/-! ### Witnesses: each statement's hypotheses are met together -/

theorem witness_DecodeInvertsEncode : ∃ i : Instr, i.wf = true ∧ i = .drw 15 15 15 := ⟨_, by decide, rfl⟩

theorem witness_EncodeInvertsDecode : ∃ (w : Word) (i : Instr), decodeWord w = some i := ⟨0x8AB6, .shr 0xA 0xB, by decide⟩

theorem witness_OpcodeMapSelectsInstruction :
    (∃ (w : Word) (r : OpcodeRow), r ∈ opcodeRows ∧ w &&& r.mask = r.pattern) ∧
      ∃ w : Word, ∀ r ∈ opcodeRows, w &&& r.mask ≠ r.pattern :=
  ⟨⟨0xF765, ⟨"LD_Vx___I", 0xF0FF, 0xF065⟩, by decide, by decide⟩, 0x5121, by decide⟩

/-- At the last legal fetch, and on the illegal word 0x0000 (D-JP-4). -/
theorem witness_IllegalWordTakesDecodeFault :
    ∃ s : State, s.run = .running ∧ s.pc.toNat = 0xFFE ∧ illegalWord (fetchWord s.mem s.pc.toNat) :=
  ⟨{ State.reset with pc := 0xFFE }, rfl, rfl, by unfold illegalWord; decide⟩

/-- The longest image, and the shortest. -/
theorem witness_LoadPlacesProgram :
    (∃ rom : List Byte, rom.length = 3584 ∧ rom.length ≤ 3584) ∧ ([] : List Byte).length ≤ 3584 :=
  ⟨⟨List.replicate 3584 0x11, List.length_replicate, Nat.le_of_eq List.length_replicate⟩, by decide⟩

theorem witness_LoadTooLongChangesNothing :
    ∃ (rom : List Byte) (s : State), 3584 < rom.length ∧ s.schedule = .load rom :: [] :=
  ⟨List.replicate 3585 0x11, { State.reset with schedule := [.load (List.replicate 3585 0x11)] },
    Nat.lt_of_lt_of_eq (by decide) List.length_replicate.symm, rfl⟩

theorem witness_ScheduleIsPerformedInOrder :
    State.reset.schedule = [] ∧ (∃ s : State, s.schedule = .tick :: [.cycle]) ∧
      ∃ t, perform .tick State.reset = .next t :=
  ⟨rfl, ⟨{ State.reset with schedule := [.tick, .cycle] }, rfl⟩, _, rfl⟩

/-- A state whose memory holds a word at its `PC`. -/
def holding (pc : Word) (hi lo : Byte) : State :=
  { State.reset with pc := pc, mem := memWrite [] pc.toNat [hi, lo] }

/-- At the last legal fetch, in both schedules. -/
theorem witness_StepRunsDecodedInstruction :
    ∃ s : State, s.run = .running ∧ s.pc.toNat = 0xFFE ∧
      decodeBytes (memRead s.mem s.pc.toNat 2) = .instr (.ldImm 0xA 2) [] ∧ s.schedule = [] :=
  ⟨holding 0xFFE 0x6A 0x02, rfl, rfl, by decide, rfl⟩

theorem witness_StepRunsDecodedInstruction_scheduled :
    ∃ s : State, s.run = .running ∧ s.pc.toNat ≤ 0xFFE ∧
      decodeBytes (memRead s.mem s.pc.toNat 2) = .instr (.ldImm 0xA 2) [] ∧ s.schedule = .cycle :: [.tick] :=
  ⟨{ holding 0x200 0x6A 0x02 with schedule := [.cycle, .tick] }, rfl, by decide, by decide, rfl⟩

/-- Both sides of the boundary; below it a legal and an illegal word. -/
theorem witness_FetchReadsBigEndianWord :
    (∃ s : State, s.run = .running ∧ s.pc.toNat = 0xFFF) ∧
      (∃ (s : State) (w : Word), s.run = .running ∧ s.pc.toNat = 0xFFE ∧
        w.toNat = (s.mem.read s.pc.toNat).toNat * 256 + (s.mem.read (s.pc.toNat + 1)).toNat ∧
        decodeWord w = some (.ldImm 0xA 2)) ∧
      ∃ (s : State) (w : Word), s.run = .running ∧ s.pc.toNat = 0xFFE ∧
        w.toNat = (s.mem.read s.pc.toNat).toNat * 256 + (s.mem.read (s.pc.toNat + 1)).toNat ∧ decodeWord w = none :=
  ⟨⟨{ State.reset with pc := 0xFFF }, rfl, rfl⟩, ⟨holding 0xFFE 0x6A 0x02, 0x6A02, rfl, rfl, by decide, by decide⟩,
    holding 0xFFE 0x51 0x21, 0x5121, rfl, rfl, by decide, by decide⟩

theorem witness_CyclesFreezeWhileWaitingOrHalted :
    (∃ s : State, s.schedule = [] ∧ s.run = .awaitingKey) ∧ ∃ s : State, s.schedule = [] ∧ s.run = .halted :=
  ⟨⟨{ State.reset with run := .awaitingKey }, rfl, rfl⟩, { State.reset with run := .halted }, rfl, rfl⟩

theorem witness_JumpsReplacePc : ∃ nnn : Nat, nnn = 0xFFF ∧ nnn < 4096 := ⟨_, rfl, by decide⟩

/-- Both sides of the boundary. -/
theorem witness_CallPushesReturnAddress :
    (∃ (nnn : Nat) (s : State), nnn < 4096 ∧ s.stack.length = 15) ∧ ∃ s : State, s.stack.length = 16 :=
  ⟨⟨0xFFF, { State.reset with stack := List.replicate 15 0x202 }, by decide, by decide⟩,
    { State.reset with stack := List.replicate 16 0x202 }, by decide⟩

theorem witness_ReturnPopsStack :
    (∃ (s : State) (below : List Word) (a : Word), s.stack = below ++ [a]) ∧ State.reset.stack = [] :=
  ⟨⟨{ State.reset with stack := [0x206, 0x304] }, [0x206], 0x304, rfl⟩, rfl⟩

theorem witness_ReturnUndoesCall :
    ∃ s t u : State, s.pc.toNat = 0xFFE ∧ s.stack.length = 15 ∧ exec (.call 0x300) s = .next t ∧ u.stack = t.stack := by
  refine ⟨{ State.reset with pc := 0xFFE, stack := List.replicate 15 0x202 }, ?_⟩
  obtain ⟨t, h, -⟩ := exists_of_nextHas (p := fun _ => true)
    (o := exec (.call 0x300) { State.reset with pc := 0xFFE, stack := List.replicate 15 0x202 }) (by decide)
  exact ⟨t, t, rfl, by decide, h, rfl⟩

/-- Both outcomes of a comparison, at the last address an instruction is fetched from. -/
theorem witness_SkipsOnComparison :
    (∃ (s : State), s.pc.toNat = 0xFFE ∧ s.reg 1 = 7 ∧ s.reg 1 = s.reg 2) ∧
      ∃ (s : State), s.pc.toNat = 0xFFE ∧ s.reg 1 ≠ 7 ∧ s.reg 1 ≠ s.reg 2 :=
  ⟨⟨{ start 1 7 2 7 with pc := 0xFFE }, by decide, by decide, by decide⟩,
    { start 1 8 2 7 with pc := 0xFFE }, by decide, by decide, by decide⟩

theorem witness_AddWritesCarry : ∃ x : RegIdx, x ≠ VF := ⟨14, by decide⟩

theorem witness_SubtractWritesGreater : ∃ x r : RegIdx, x ≠ VF ∧ r ≠ x ∧ r ≠ VF := ⟨14, 0, by decide⟩

theorem witness_ShiftsWriteBitOut : ∃ x r : RegIdx, x ≠ VF ∧ r ≠ x ∧ r ≠ VF := ⟨0, 14, by decide⟩

theorem witness_RandomIsMaskedDraw :
    ∃ (s : State) (b : Byte) (rest : List Byte) (kk : Byte) (k : Nat), s.rndIn = b :: rest ∧ kk.getLsbD k = false :=
  ⟨{ State.reset with rndIn := [0xA7] }, 0xA7, [], 0x0F, 7, rfl, by decide⟩

theorem witness_IndexWrites : ∃ nnn : Nat, nnn = 0xFFF ∧ nnn < 4096 := ⟨_, rfl, by decide⟩

/-- The last glyph. -/
theorem witness_GlyphAddressFindsGlyph :
    ∃ (x : RegIdx) (g : Fin 16) (s : State), g = 15 ∧ (s.reg x).toNat = g.val ∧ s.mem = State.reset.mem :=
  ⟨3, 15, start 3 15 0 0, rfl, by decide, rfl⟩

/-- Both sides of the boundary. -/
theorem witness_DecimalStore :
    (∃ s : State, s.i.toNat + 2 = 0xFFF) ∧ ∃ s : State, s.i.toNat + 2 = 0x1000 :=
  ⟨⟨State.reset.setI 0xFFD, by decide⟩, State.reset.setI 0xFFE, by decide⟩

/-- Both sides of the boundary, for the longest store or load. -/
theorem witness_RegisterStore :
    (∃ (x : RegIdx) (s : State), s.i.toNat + x.val = 0xFFF) ∧ ∃ (x : RegIdx) (s : State), s.i.toNat + x.val = 0x1000 :=
  ⟨⟨15, State.reset.setI 0xFF0, by decide⟩, 15, State.reset.setI 0xFF1, by decide⟩

theorem witness_RegisterLoad :
    (∃ (x : RegIdx) (s : State), s.i.toNat + x.val = 0xFFF) ∧ ∃ (x : RegIdx) (s : State), s.i.toNat + x.val = 0x1000 :=
  ⟨⟨0, State.reset.setI 0xFFF, by decide⟩, 0, State.reset.setI 0x1000, by decide⟩

/-- Not the same state: the registers have been cleared in between (D-RT-1). -/
theorem witness_StoreLoadRoundTrip :
    ∃ s t u : State, s.i.toNat + (3 : RegIdx).val ≤ 0xFFF ∧ exec (.stRegs 3) s = .next t ∧ u.i = t.i ∧
      (∀ k, k ≤ (3 : RegIdx).val → u.mem.read (s.i.toNat + k) = t.mem.read (s.i.toNat + k)) ∧ u.reg 0 ≠ s.reg 0 := by
  refine ⟨(start 0 0xDE 1 0xAD).setI 0x500, ?_⟩
  obtain ⟨t, h, hr⟩ := exists_of_nextHas (p := fun t => decide (t.reg 0 = 0xDE))
    (o := exec (.stRegs 3) ((start 0 0xDE 1 0xAD).setI 0x500)) (by decide)
  refine ⟨t, t.setReg 0 0, by decide, h, rfl, fun k _ => rfl, ?_⟩
  rw [State.reg_setReg, if_pos rfl]
  decide

/-- A machine at 0xFFC, the last address of the statement, on a storing word, with the bytes after it given. -/
def storing (i : Word) (hi lo nextHi nextLo v0 v1 : Byte) : State :=
  { start 0 v0 1 v1 with pc := 0xFFC, i := i, mem := memWrite [] 0xFFC [hi, lo, nextHi, nextLo] }

/-- `F155` stores both bytes of the next word, and both outcomes of its decoding. -/
theorem witness_StoreSeenByNextFetch :
    ∃ s s' : State, s.schedule = [] ∧ s.run = .running ∧ s.pc.toNat = 0xFFC ∧
      faultCondition (.stRegs 1) s = none ∧ fetchWord s.mem s.pc.toNat = encode (.stRegs 1) ∧
      decodeWord (wordOfBytes (byteAfter (.stRegs 1) s 0xFFE) (byteAfter (.stRegs 1) s 0xFFF)) = some (.ldImm 0xA 2) ∧
      s'.schedule = [] ∧ s'.run = .running ∧ s'.pc.toNat = 0xFFC ∧
      faultCondition (.stRegs 1) s' = none ∧ fetchWord s'.mem s'.pc.toNat = encode (.stRegs 1) ∧
      decodeWord (wordOfBytes (byteAfter (.stRegs 1) s' 0xFFE) (byteAfter (.stRegs 1) s' 0xFFF)) = none :=
  ⟨storing 0xFFE 0xF1 0x55 0 0 0x6A 0x02, storing 0xFFE 0xF1 0x55 0 0 0x51 0x21, by decide⟩

/-- `F033` overwrites its own two bytes and the first of the next word, which is then 0x00E0. -/
theorem witness_StoreSeenByNextFetch_digits :
    ∃ s : State, s.schedule = [] ∧ s.run = .running ∧ s.pc.toNat = 0xFFC ∧
      faultCondition (.ldB 0) s = none ∧ fetchWord s.mem s.pc.toNat = encode (.ldB 0) ∧
      decodeWord (wordOfBytes (byteAfter (.ldB 0) s 0xFFE) (byteAfter (.ldB 0) s 0xFFF)) = some .cls :=
  ⟨storing 0xFFC 0xF0 0x33 0x12 0xE0 120 0, by decide⟩

/-- Written in two orders. -/
theorem witness_CanonicalMemoryIsUnique :
    ∃ m m' : Memory, m ≠ [] ∧ m.wf ∧ m'.wf ∧ ∀ a, a ≤ 0xFFF → m.read a = m'.read a :=
  ⟨(Memory.write [] 0x300 1).write 0x301 2, (Memory.write [] 0x301 2).write 0x300 1, by decide, by decide, by decide,
    fun a _ => congrFun (congrArg Memory.read
      (by decide : (Memory.write [] 0x300 1).write 0x301 2 = (Memory.write [] 0x301 2).write 0x300 1)) a⟩

/-- Both sides of the boundary, for the tallest sprite, and no rows at all beyond it. -/
theorem witness_DrawXorsSprite :
    (∃ (n : Nat) (s : State), n = 15 ∧ n < 16 ∧ s.i.toNat + n - 1 = 0xFFF) ∧
      (∃ (n : Nat) (s : State), n = 15 ∧ n < 16 ∧ 1 ≤ n ∧ s.i.toNat + n - 1 = 0x1000) ∧
      ∃ (n : Nat) (s : State), n = 0 ∧ n < 16 ∧ s.i.toNat = 0xFFFF :=
  ⟨⟨15, State.reset.setI 0xFF1, by decide⟩, ⟨15, State.reset.setI 0xFF2, by decide⟩,
    0, State.reset.setI 0xFFFF, by decide⟩

theorem witness_DrawTwiceRestores :
    ∃ s t u : State, s.i.toNat + 1 - 1 ≤ 0xFFF ∧ exec (.drw 0 1 1) s = .next t ∧ t.fb ≠ s.fb ∧
      u.fb = t.fb ∧ u.mem = s.mem ∧ u.i = s.i ∧ u.reg 0 = s.reg 0 ∧ u.reg 1 = s.reg 1 := by
  refine ⟨start 0 63 1 31, ?_⟩
  obtain ⟨t, h, hf⟩ := exists_of_nextHas (o := exec (.drw 0 1 1) (start 0 63 1 31))
    (p := fun t => decide (t.fb ≠ (start 0 63 1 31).fb)) (by decide)
  exact ⟨t, { start 0 63 1 31 with fb := t.fb }, by decide, h, of_decide_eq_true hf, rfl, rfl, rfl, rfl, rfl⟩

/-- The last key code with the key down and up, and the first value beyond. -/
theorem witness_KeySkips :
    (∃ (s : State) (k : Key), s.pc.toNat = 0xFFE ∧ k = 15 ∧ (s.reg 1).toNat = k.val ∧ s.keys[k.val] = true) ∧
      (∃ (s : State) (k : Key), s.pc.toNat = 0xFFE ∧ k = 15 ∧ (s.reg 1).toNat = k.val ∧ s.keys[k.val] = false) ∧
      ∃ s : State, s.pc.toNat = 0xFFE ∧ (s.reg 1).toNat = 0x10 :=
  ⟨⟨{ start 1 15 0 0 with pc := 0xFFE, keysIn := [Vector.replicate 16 true] }, 15, by decide⟩,
    ⟨{ start 1 15 0 0 with pc := 0xFFE, keysIn := [keyTenDown] }, 15, by decide⟩,
    { start 1 0x10 0 0 with pc := 0xFFE }, by decide⟩

theorem witness_KeyWaitLastsUntilKeyPress : State.reset.schedule = [] := rfl

theorem witness_KeyPressOutsideWaitIsIgnored :
    State.reset.run = .running ∧ ∃ s : State, s.run = .halted := ⟨rfl, { State.reset with run := .halted }, rfl⟩

theorem witness_CheckPhaseDecidesFault :
    faultCondition .ret State.reset = some (.stackUnderflow, 0) ∧
      faultCondition (.ldB 0) (State.reset.setI 0xFFE) = some (.addressFault, 0x1000) ∧
      faultCondition (.ldB 0) (State.reset.setI 0xFFD) = none := by decide

/-- A state at the end of its program: a byte stored, a call made, `PC` at the highest value of R13. -/
def endOfProgram : State :=
  { State.reset with pc := 0x10FE, stack := [0x1000], mem := [(0xFFF, 0x12)] }

theorem endOfProgram_inv : endOfProgram.Inv where
  mem := by decide
  pc := by decide
  depth := by simp [endOfProgram]
  entries := by simp [endOfProgram]
  halted := by simp [endOfProgram, State.reset]
  record := by simp [endOfProgram, State.reset]

theorem witness_StepKeepsMachineWellFormed : ∃ s t : State, s.Inv ∧ step s = .next t ∧ t.run = .halted :=
  ⟨endOfProgram, haltedWith ⟨.addressFault, 0x10FE, none, 0x10FF⟩ endOfProgram, endOfProgram_inv, rfl, rfl⟩

/-- A halted state meets the invariant too, its record being of R202. -/
theorem witness_halted_Inv : (haltedWith ⟨.stackUnderflow, 0x10FE, some 0x00EE, 0⟩ endOfProgram).Inv where
  mem := endOfProgram_inv.mem
  pc := endOfProgram_inv.pc
  depth := endOfProgram_inv.depth
  entries := endOfProgram_inv.entries
  halted := by simp [haltedWith]
  record := fun f hf => by
    obtain rfl := Option.some.inj hf
    exact ⟨rfl, rfl, rfl⟩

/-- Each storage changes under one of its writers. -/
theorem witness_StorageHasItsWriters :
    (∃ t, exec (.ldB 0) { start 0 254 1 0 with i := 0x300 } = .next t ∧ t.mem ≠ State.reset.mem) ∧
      (∃ t, exec (.drw 0 0 5) State.reset = .next t ∧ t.fb ≠ State.reset.fb) ∧
      (∃ t, exec (.call 0x300) State.reset = .next t ∧ t.stack ≠ State.reset.stack) ∧
      (∃ t, exec (.ldI 0x300) State.reset = .next t ∧ t.i ≠ State.reset.i) ∧
      (∃ t, exec (.ldDtVx 0) (start 0 1 1 0) = .next t ∧ t.dt ≠ State.reset.dt) ∧
      (∃ t, exec (.ldStVx 0) (start 0 1 1 0) = .next t ∧ t.st ≠ State.reset.st) ∧
      ∃ t, exec (.ldVxK 3) State.reset = .next t ∧ t.kreg ≠ State.reset.kreg ∧ t.run ≠ State.reset.run := by
  refine ⟨?_, ?_, ?_, ?_, ?_, ?_, ?_⟩
  · simpa using exists_of_nextHas (o := exec (.ldB 0) { start 0 254 1 0 with i := 0x300 })
      (p := fun t => decide (t.mem ≠ State.reset.mem)) (by decide)
  · simpa using exists_of_nextHas (o := exec (.drw 0 0 5) State.reset)
      (p := fun t => decide (t.fb ≠ State.reset.fb)) (by decide)
  · exact ⟨_, rfl, by decide⟩
  · exact ⟨_, rfl, by decide⟩
  · exact ⟨_, rfl, by decide⟩
  · exact ⟨_, rfl, by decide⟩
  · exact ⟨_, rfl, by decide, by decide⟩

theorem witness_RegistersHaveTheirWriters :
    (∃ t, exec (.ldImm 3 7) State.reset = .next t ∧ t.reg 3 ≠ State.reset.reg 3) ∧
      ∃ (i : Instr) (t : State), i = .addReg 1 2 ∧ faultCondition i State.reset = none ∧ exec i State.reset = .next t :=
  ⟨⟨_, rfl, by decide⟩, .addReg 1 2, _, rfl, rfl, rfl⟩

theorem witness_KeysAreReadOnlyByKeySkips :
    ∃ (i : Instr) (t : State), (∀ x, i ≠ .skp x ∧ i ≠ .sknp x) ∧ exec i State.reset = .next t :=
  ⟨.ldVxK 3, _, fun _ => ⟨nofun, nofun⟩, rfl⟩

theorem witness_RandomIsReadOnlyByRnd :
    ∃ (i : Instr) (t : State), (∀ x kk, i ≠ .rnd x kk) ∧ exec i State.reset = .next t :=
  ⟨.cls, _, fun _ _ => nofun, rfl⟩

/-- Each of the ways out, and the staying, from a halted state. -/
theorem witness_HaltedIsLeftOnlyByResetOrLoad :
    (∃ s t : State, s.run = .halted ∧ s.schedule = [.tick] ∧ step s = .next t) ∧
      ∃ s t : State, s.run = .halted ∧ s.schedule = [.load [0x12]] ∧ step s = .next t ∧ t.run = .running :=
  ⟨⟨{ State.reset with run := .halted, schedule := [.tick] }, _, rfl, rfl, rfl⟩,
    { State.reset with run := .halted, schedule := [.load [0x12]] }, _, rfl, rfl, rfl, rfl⟩

theorem witness_WaitIsLeftOnlyByKeyPressResetOrLoad :
    (∃ s t : State, s.run = .awaitingKey ∧ s.schedule = [.tick] ∧ step s = .next t) ∧
      ∃ s t : State, s.run = .awaitingKey ∧ s.schedule = [.keyPress 7] ∧ step s = .next t ∧ t.run = .running :=
  ⟨⟨{ State.reset with run := .awaitingKey, schedule := [.tick] }, _, rfl, rfl, rfl⟩,
    { State.reset with run := .awaitingKey, schedule := [.keyPress 7] }, _, rfl, rfl, rfl, rfl⟩

/-- D-TICK-2, a `Reset`, a `Load`, and the tone turned on by `Fx18`. -/
theorem witness_ToneHasItsCauses :
    (∃ s t : State, step s = .next t ∧ s.schedule = [.tick] ∧ t.tone ≠ s.tone) ∧
      (∃ s t : State, step s = .next t ∧ s.schedule = [.reset] ∧ t.tone ≠ s.tone) ∧
      (∃ s t : State, step s = .next t ∧ s.schedule = [.load [0x12]] ∧ t.tone ≠ s.tone) ∧
      ∃ s t : State, step s = .next t ∧ s.schedule = [] ∧ t.tone ≠ s.tone := by
  refine ⟨⟨{ State.reset with st := 1, schedule := [.tick] }, _, rfl, rfl, by decide⟩,
    ⟨{ State.reset with st := 9, schedule := [.reset] }, _, rfl, rfl, by decide⟩,
    ⟨{ State.reset with st := 9, schedule := [.load [0x12]] }, _, rfl, rfl, by decide⟩,
    { start 0 2 1 0 with mem := memWrite [] 0x200 [0xF0, 0x18] }, ?_⟩
  obtain ⟨t, h, ht⟩ := exists_of_nextHas (o := step { start 0 2 1 0 with mem := memWrite [] 0x200 [0xF0, 0x18] })
    (p := fun t => decide (t.tone = true)) (by decide)
  exact ⟨t, h, rfl, by rw [of_decide_eq_true ht]; decide⟩

/-- Both values of `Fx18`, both sides of the `Tick`, and the longest image. -/
theorem witness_ToneFollowsSoundTimer :
    (start 0 2 1 0).reg 0 ≠ 0 ∧ (start 0 2 1 0).reg 1 = 0 ∧ (∃ s : State, s.st = 1) ∧ (∃ s : State, s.st ≠ 1) ∧
      ∃ rom : List Byte, rom.length = 3584 ∧ rom.length ≤ 3584 :=
  ⟨by decide, by decide, ⟨{ State.reset with st := 1 }, rfl⟩, ⟨{ State.reset with st := 2 }, by decide⟩,
    List.replicate 3584 0x11, List.length_replicate, Nat.le_of_eq List.length_replicate⟩

/-- An instruction that stores, one that does not. -/
theorem witness_InstructionLeavesBytes :
    (∃ (s t : State), faultCondition (.stRegs 1) s = none ∧ exec (.stRegs 1) s = .next t) ∧
      ∃ (s t : State), faultCondition .cls s = none ∧ exec .cls s = .next t := by
  obtain ⟨t, h, -⟩ := exists_of_nextHas (p := fun _ => true) (o := exec (.stRegs 1) ((start 0 1 1 2).setI 0xFFE)) (by decide)
  exact ⟨⟨(start 0 1 1 2).setI 0xFFE, t, by decide, h⟩, State.reset, _, rfl, rfl⟩

/-- D-JP-2. -/
theorem witness_SelfJumpIsFixedPoint : ∃ s : State, s.finished ∧ s.schedule = [] :=
  ⟨holding 0x200 0x12 0x00, ⟨rfl, by decide, by decide⟩, rfl⟩

end Tests
end Sys2Proof
end

section
/-! PROOFS. What an instruction does, said once: the state its commit leaves (R85), and that `exec` is that commit
behind the table of faults of R84; what the commit keeps; and which operation a step performs. -/

namespace Sys2Proof
namespace Machine

/-! ### The commit of an instruction (R85) -/

/-- The state an instruction leaves where it raises no fault (R85). -/
def committed (i : Instr) (s : State) : State :=
  match i with
  | .cls => { s with fb := Framebuffer.blank }.advance
  | .ret => s.pop.setPc s.top.toNat
  | .jp nnn => s.setPc nnn
  | .call nnn => (s.push (BitVec.ofNat 16 s.npc)).setPc nnn
  | .seImm x kk => s.skipIf (decide (s.reg x = kk))
  | .sneImm x kk => s.skipIf (decide (s.reg x ≠ kk))
  | .seReg x y => s.skipIf (decide (s.reg x = s.reg y))
  | .ldImm x kk => (s.setReg x kk).advance
  | .addImm x kk => (s.setReg x (s.reg x + kk)).advance
  | .ldReg x y => (s.setReg x (s.reg y)).advance
  | .orReg x y => (s.setReg x (s.reg x ||| s.reg y)).advance
  | .andReg x y => (s.setReg x (s.reg x &&& s.reg y)).advance
  | .xorReg x y => (s.setReg x (s.reg x ^^^ s.reg y)).advance
  | .addReg x y => (s.setResultAndFlag x (s.reg x + s.reg y) (carryFlag (s.reg x) (s.reg y))).advance
  | .sub x y => (s.setResultAndFlag x (s.reg x - s.reg y) (greaterFlag (s.reg x) (s.reg y))).advance
  | .shr x _ => (s.setResultAndFlag x (s.reg x >>> 1) (lowBitFlag (s.reg x))).advance
  | .subn x y => (s.setResultAndFlag x (s.reg y - s.reg x) (greaterFlag (s.reg y) (s.reg x))).advance
  | .shl x _ => (s.setResultAndFlag x (s.reg x <<< 1) (highBitFlag (s.reg x))).advance
  | .sneReg x y => s.skipIf (decide (s.reg x ≠ s.reg y))
  | .ldI nnn => (s.setI nnn).advance
  | .jpV0 nnn => s.setPc (nnn + (s.reg 0).toNat)
  | .rnd x kk => (s.takeRnd.setReg x (s.rnd &&& kk)).advance
  | .drw x y n => ({ s with fb := (s.drawn x y n).1 }.setReg VF (collisionFlag (s.drawn x y n).2)).advance
  | .skp x => s.takeKeys.skipIf (s.keyDown x)
  | .sknp x => s.takeKeys.skipIf (!s.keyDown x)
  | .ldVxDt x => (s.setReg x s.dt).advance
  | .ldVxK x => { s with kreg := x, run := .awaitingKey }.advance
  | .ldDtVx x => { s with dt := s.reg x }.advance
  | .ldStVx x => { s with st := s.reg x }.advance
  | .addI x => (s.setI (s.i.toNat + (s.reg x).toNat)).advance
  | .ldF x => (s.setI ((s.reg x).toNat * Config.glyphLen)).advance
  | .ldB x => { s with mem := memWrite s.mem (s.ea 0) (bcdDigits (s.reg x)) }.advance
  | .stRegs x => { s with mem := memWrite s.mem (s.ea 0) (s.regsUpTo x) }.advance
  | .ldRegs x => { s with v := setRegsFrom s.v 0 (memRead s.mem (s.ea 0) (x.val + 1)) }.advance

/-- The check of an access to n + 1 bytes, in the form of the table of R84. -/
theorem accessCheck_succ (s : State) (n : Nat) :
    accessCheck s (n + 1) = if 0xFFF < s.i.toNat + n then some (.addressFault, s.i.toNat + n) else none := by
  split
  · next h => exact accessCheck_eq_some.2 ⟨rfl, by omega, by omega, by omega⟩
  · next h => exact accessCheck_eq_none.2 (.inr (by omega))

theorem accessCheck_eq (s : State) (n : Nat) :
    accessCheck s n =
      if 1 ≤ n ∧ 0xFFF < s.i.toNat + n - 1 then some (.addressFault, s.i.toNat + n - 1) else none := by
  split
  · next h => exact accessCheck_eq_some.2 ⟨rfl, h.1, h.2, rfl⟩
  · next h => exact accessCheck_eq_none.2 (by omega)

theorem underflowCheck_eq (s : State) :
    underflowCheck s = if s.stack = [] then some (.stackUnderflow, 0) else none := by
  simp only [underflowCheck, List.length_eq_zero_iff]

/-- An instruction is its commit behind the condition R84 gives for it (R84 to R86). -/
theorem exec_eq (i : Instr) (s : State) :
    exec i s = commitUnless (faultCondition i s) i s (committed i s) := by
  cases i with
  | ret => exact congrArg (commitUnless · ..) (underflowCheck_eq s)
  | call nnn => exact congrArg (commitUnless · ..) (overflowCheck_eq s)
  | drw x y n => exact congrArg (commitUnless · ..) (accessCheck_eq s n)
  | ldB x => exact congrArg (commitUnless · ..) (accessCheck_succ s 2)
  | stRegs x => exact congrArg (commitUnless · ..) (accessCheck_succ s x.val)
  | ldRegs x => exact congrArg (commitUnless · ..) (accessCheck_succ s x.val)
  | _ => rfl

/-- What an instruction can do: commit, or take the fault R84 gives for it. -/
theorem exec_next {i : Instr} {s t : State} (h : exec i s = .next t) :
    (faultCondition i s = none ∧ t = committed i s) ∨
    ∃ c info, faultCondition i s = some (c, info) ∧ t = takeFault c (some (encode i)) info s :=
  commitUnless_next (exec_eq i s ▸ h)

theorem exec_of_no_fault {i : Instr} {s t : State} (hc : faultCondition i s = none) (h : exec i s = .next t) :
    t = committed i s := by
  rw [exec_eq, hc, commitUnless_none] at h
  exact (Host.Outcome.next.inj h).symm

/-! ### What a commit keeps -/

@[simp] theorem committed_fault (i : Instr) (s : State) : (committed i s).fault = s.fault := by
  cases i <;> rfl

@[simp] theorem committed_schedule (i : Instr) (s : State) : (committed i s).schedule = s.schedule := by
  cases i <;> rfl

/-- A running machine that commits an instruction is not halted by it. -/
theorem committed_run_ne_halted {i : Instr} {s : State} (h : s.run = .running) :
    (committed i s).run ≠ .halted := by
  have key : (committed i s).run = s.run ∨ (committed i s).run = .awaitingKey := by
    cases i with
    | ldVxK x => exact .inr rfl
    | _ => exact .inl rfl
  rcases key with e | e <;> simp [e, h]

/-- Only `Fx18` writes the sound timer (R56, R187). -/
theorem committed_st (i : Instr) (s : State) :
    (committed i s).st = s.st ∨ ∃ x, i = .ldStVx x ∧ (committed i s).st = s.reg x := by
  cases i with
  | ldStVx x => exact .inr ⟨x, rfl, rfl⟩
  | _ => exact .inl rfl

/-- A register that is no destination of the instruction keeps its value (R10, R11). -/
theorem committed_reg_of_not_writesReg {i : Instr} {r : RegIdx} (s : State) (h : ¬ writesReg i r) :
    (committed i s).reg r = s.reg r := by
  cases i with
  | ldImm x | addImm x | ldReg x | orReg x | andReg x | xorReg x | rnd x | ldVxDt x =>
    have hx : x ≠ r := fun e => h e.symm
    simp [committed, hx]
  | addReg x | sub x | shr x | subn x | shl x =>
    obtain ⟨hx, hf⟩ : x ≠ r ∧ VF ≠ r := ⟨fun e => h (.inl e.symm), fun e => h (.inr e.symm)⟩
    simp only [committed, State.advance_reg, State.reg_setResultAndFlag, hx, hf, if_false]
  | drw x y n =>
    have hf : VF ≠ r := fun e => h e.symm
    simp only [committed, State.advance_reg, State.reg_setReg, hf, if_false]
    rfl
  | ldRegs x =>
    have hr : ¬ r.val < x.val + 1 := fun e => h (Nat.le_of_lt_succ e)
    simp [committed, State.reg, State.advance, getElem_setRegsFrom, hr]
  | _ => rfl

/-! ### What a step performs (R26, log 3) -/

theorem step_of_nil {s : State} (h : s.schedule = []) : step s = cycle s := by
  rw [step_eq, h]

theorem step_of_cons {s : State} {op : HostOp} {rest : List HostOp} (h : s.schedule = op :: rest) :
    step s = perform op { s with schedule := rest } := by
  rw [step_eq, h]

end Machine
end Sys2Proof
end

section
/-! PROOFS. The decoder's answers: what it refuses is the list of R70, and what it accepts is well formed (R61, R65). -/

namespace Sys2Proof

theorem fieldNNN_lt (w : Word) : fieldNNN w < 4096 := by
  rw [fieldNNN_eq]; exact Nat.mod_lt _ (by decide)

theorem fieldN_lt (w : Word) : fieldN w < 16 := by
  rw [fieldN_eq]; exact Nat.mod_lt _ (by decide)

theorem fieldOp_lt (w : Word) : fieldOp w < 16 := (w.extractLsb' 12 4).isLt

/-! ### What the decoder accepts -/

theorem decodeFamily0_wf {w : Word} {i : Instr} (h : decodeFamily0 w = some i) : i.wf = true := by
  unfold decodeFamily0 at h
  split at h
  · cases h; rfl
  · split at h <;> cases h
    rfl

theorem decodeFamily8_wf {w : Word} {i : Instr} (h : decodeFamily8 w = some i) : i.wf = true := by
  unfold decodeFamily8 at h
  split at h <;> cases h <;> rfl

theorem decodeFamilyE_wf {w : Word} {i : Instr} (h : decodeFamilyE w = some i) : i.wf = true := by
  unfold decodeFamilyE at h
  split at h <;> cases h <;> rfl

theorem decodeFamilyF_wf {w : Word} {i : Instr} (h : decodeFamilyF w = some i) : i.wf = true := by
  unfold decodeFamilyF at h
  split at h <;> cases h <;> rfl

/-- The operands of a decoded instruction fit their fields (R61). -/
theorem decodeWord_wf {w : Word} {i : Instr} (h : decodeWord w = some i) : i.wf = true := by
  have hA := fieldNNN_lt w
  have hN := fieldN_lt w
  unfold decodeWord at h
  split at h
  · exact decodeFamily0_wf h
  case h_9 => exact decodeFamily8_wf h
  case h_15 => exact decodeFamilyE_wf h
  case h_16 => exact decodeFamilyF_wf h
  all_goals grind [Instr.wf]

/-! ### What the decoder refuses -/

theorem decodeFamily0_eq_none {w : Word} : decodeFamily0 w = none ↔ w.toNat ≠ 0x00E0 ∧ w.toNat ≠ 0x00EE := by
  have h0 : w = 0x00E0 ↔ w.toNat = 0x00E0 := BitVec.toNat_inj.symm
  have h1 : w = 0x00EE ↔ w.toNat = 0x00EE := BitVec.toNat_inj.symm
  simp only [decodeFamily0, h0, h1]
  split
  · simp [*]
  · split <;> simp [*]

theorem decodeFamily8_eq_none {w : Word} :
    decodeFamily8 w = none ↔ w.toNat % 16 ∈ [0x8, 0x9, 0xA, 0xB, 0xC, 0xD, 0xF] := by
  have hlt := fieldN_lt w
  rw [← fieldN_eq]
  unfold decodeFamily8
  split
  case h_10 =>
    simp_all only [imp_false, List.mem_cons, List.not_mem_nil, true_iff]
    omega
  all_goals simp [*]

theorem decodeFamilyE_eq_none {w : Word} : decodeFamilyE w = none ↔ w.toNat % 256 ∉ [0x9E, 0xA1] := by
  rw [← fieldKK_toNat]
  unfold decodeFamilyE
  split <;> simp_all

theorem decodeFamilyF_eq_none {w : Word} :
    decodeFamilyF w = none ↔
      w.toNat % 256 ∉ [0x07, 0x0A, 0x15, 0x18, 0x1E, 0x29, 0x33, 0x55, 0x65] := by
  rw [← fieldKK_toNat]
  unfold decodeFamilyF
  split <;> simp_all

theorem decodeWord_eq_none {w : Word} : decodeWord w = none ↔ Machine.illegalWord w := by
  have hop := fieldOp_lt w
  unfold Machine.illegalWord
  rw [← decodeFamily0_eq_none, ← decodeFamily8_eq_none, ← decodeFamilyE_eq_none, ← decodeFamilyF_eq_none,
    ← fieldOp_eq, ← fieldN_eq]
  unfold decodeWord
  split
  case h_17 =>
    simp_all only [imp_false]
    omega
  all_goals simp [*]

end Sys2Proof
end

section
/-! PROOFS. The invariant of the machine is kept by every step: a rule for each way a state can come about (a fault, a
commit, a host operation), and O43 from them. -/

namespace Sys2Proof
namespace Machine

/-! ### Rules of the invariant -/

/-- A machine that is not halted has no fault record (R22). -/
theorem State.Inv.fault_eq_none {s : State} (h : s.Inv) (hr : s.run ≠ .halted) : s.fault = none :=
  not_not.1 (mt h.halted.2 hr)

/-- Where there is no fault, the invariant asks only for memory, `PC` and the stack. -/
theorem State.Inv.of_no_fault {s : State} (hmem : s.mem.wf) (hpc : s.pc.toNat ≤ 0x10FE) (hdepth : s.stack.length ≤ 16)
    (hentries : ∀ a ∈ s.stack, a.toNat ≤ 0x1000) (hrun : s.run ≠ .halted) (hfault : s.fault = none) : s.Inv where
  mem := hmem
  pc := hpc
  depth := hdepth
  entries := hentries
  halted := by simp [hrun, hfault]
  record := by simp [hfault]

/-- The invariant speaks of five pieces of state only. -/
theorem State.Inv.congr {s t : State} (h : s.Inv) (hmem : t.mem = s.mem) (hpc : t.pc = s.pc)
    (hstack : t.stack = s.stack) (hrun : t.run = s.run) (hfault : t.fault = s.fault) : t.Inv where
  mem := hmem ▸ h.mem
  pc := hpc ▸ h.pc
  depth := hstack ▸ h.depth
  entries := hstack ▸ h.entries
  halted := by rw [hrun, hfault]; exact h.halted
  record := by rw [hpc, hfault]; exact h.record

theorem State.Inv.takeFault {s : State} (h : s.Inv) {c : FaultCode} {w : Option Word} {info : Nat}
    (hlegal : FaultRecord.legal ⟨c, s.pc, w, info⟩ s.pc) : (takeFault c w info s).Inv where
  mem := h.mem
  pc := h.pc
  depth := h.depth
  entries := h.entries
  halted := by simp
  record f hf := by
    obtain rfl : _ = f := Option.some.inj hf
    exact hlegal

/-! ### The faults of the fetch, of the decoder and of the instructions (R201 to R205, R207) -/

theorem legal_fetchFault {pc : Word} (hlo : 0xFFF ≤ pc.toNat) (hhi : pc.toNat ≤ 0x10FE) :
    FaultRecord.legal ⟨.addressFault, pc, none, pc.toNat + 1⟩ pc :=
  ⟨rfl, Nat.lt_succ_of_le hlo, by show pc.toNat + 1 ≤ 0x1000E; omega, rfl⟩

theorem legal_decodeFault {w : Word} (pc : Word) (h : decodeWord w = none) :
    FaultRecord.legal ⟨.decodeFault, pc, some w, w.toNat⟩ pc :=
  ⟨rfl, w, rfl, decodeWord_eq_none.1 h, rfl⟩

theorem legal_accessFault {pc w : Word} {info : Nat} (hlo : 0xFFF < info) (hhi : info ≤ 0x1000E)
    (hw : (∃ x y n, 1 ≤ n ∧ n < 16 ∧ w = encode (.drw x y n)) ∨
      ∃ x, w = encode (.ldB x) ∨ w = encode (.stRegs x) ∨ w = encode (.ldRegs x)) :
    FaultRecord.legal ⟨.addressFault, pc, some w, info⟩ pc :=
  ⟨rfl, hlo, hhi, hw⟩

theorem legal_keyFault {pc w : Word} {b : Byte} (hlo : 0x0F < b.toNat)
    (hw : ∃ x, w = encode (.skp x) ∨ w = encode (.sknp x)) :
    FaultRecord.legal ⟨.keyIndexFault, pc, some w, b.toNat⟩ pc :=
  ⟨rfl, hlo, Nat.le_of_lt_succ b.isLt, hw.imp fun _ => Or.imp (congrArg some) (congrArg some)⟩

/-- A row of the table of R84 that gives a fault: its condition holds, and the fault is the row's. -/
theorem condition_of_fault {p : Prop} [Decidable p] {c c' : FaultCode} {info info' : Nat}
    (h : (if p then some (c, info) else none) = some (c', info')) : p ∧ c = c' ∧ info = info' := by
  simpa using h

/-- A fault that R84 gives a well-formed instruction has a legal record. -/
theorem legal_of_faultCondition {i : Instr} {s : State} {c : FaultCode} {info : Nat} (hwf : i.wf = true)
    (h : faultCondition i s = some (c, info)) : FaultRecord.legal ⟨c, s.pc, some (encode i), info⟩ s.pc := by
  have hi := s.i.isLt
  cases i with
  | ret =>
    obtain ⟨-, rfl, rfl⟩ := condition_of_fault h
    exact ⟨rfl, rfl, rfl⟩
  | call nnn =>
    obtain ⟨-, rfl, rfl⟩ := condition_of_fault h
    exact ⟨rfl, ⟨nnn, of_decide_eq_true hwf, rfl⟩, rfl⟩
  | drw x y n =>
    have hn : n < 16 := of_decide_eq_true hwf
    obtain ⟨⟨hn1, hlo⟩, rfl, rfl⟩ := condition_of_fault h
    exact legal_accessFault hlo (by omega) (.inl ⟨x, y, n, hn1, hn, rfl⟩)
  | ldB x =>
    obtain ⟨hlo, rfl, rfl⟩ := condition_of_fault h
    exact legal_accessFault hlo (by omega) (.inr ⟨x, .inl rfl⟩)
  | stRegs x =>
    obtain ⟨hlo, rfl, rfl⟩ := condition_of_fault h
    exact legal_accessFault hlo (by omega) (.inr ⟨x, .inr (.inl rfl)⟩)
  | ldRegs x =>
    obtain ⟨hlo, rfl, rfl⟩ := condition_of_fault h
    exact legal_accessFault hlo (by omega) (.inr ⟨x, .inr (.inr rfl)⟩)
  | skp x =>
    obtain ⟨hlo, rfl, rfl⟩ := condition_of_fault h
    exact legal_keyFault hlo ⟨x, .inl rfl⟩
  | sknp x =>
    obtain ⟨hlo, rfl, rfl⟩ := condition_of_fault h
    exact legal_keyFault hlo ⟨x, .inr rfl⟩
  | _ => cases h

/-! ### The commits -/

theorem State.setPc_pc_le (s : State) (t : Nat) : (s.setPc t).pc.toNat ≤ t := by
  rw [State.setPc_pc, BitVec.toNat_ofNat]
  exact Nat.mod_le t _

theorem State.skipIf_pc_le (s : State) (c : Bool) : (s.skipIf c).pc.toNat ≤ s.pc.toNat + 4 := by
  rw [State.skipIf_eq]
  refine (State.setPc_pc_le s _).trans ?_
  split <;> omega

/-- An instruction fetched inside memory leaves `PC` in the range of R13. -/
theorem committed_pc_le {i : Instr} {s : State} (hwf : i.wf = true) (hpc : s.pc.toNat < 0xFFF)
    (hentries : ∀ a ∈ s.stack, a.toNat ≤ 0x1000) : (committed i s).pc.toNat ≤ 0x10FE := by
  cases i with
  | ret =>
    refine (State.setPc_pc_le _ _).trans ?_
    show s.top.toNat ≤ 0x10FE
    rcases List.mem_cons.1 (List.getLastD_mem_cons (l := s.stack) (a := 0)) with h | h
    · rw [State.top, h]; decide
    · exact (hentries _ h).trans (by decide)
  | jp nnn | call nnn =>
    have hnnn : nnn < 4096 := of_decide_eq_true hwf
    exact (State.setPc_pc_le _ _).trans (by omega)
  | jpV0 nnn =>
    have hnnn : nnn < 4096 := of_decide_eq_true hwf
    have hv := (s.reg 0).isLt
    exact (State.setPc_pc_le _ _).trans (by omega)
  | seImm | sneImm | seReg | sneReg | skp | sknp =>
    exact (State.skipIf_pc_le _ _).trans (by show s.pc.toNat + 4 ≤ 0x10FE; omega)
  | _ => exact (State.setPc_pc_le _ _).trans (by show s.pc.toNat + 2 ≤ 0x10FE; omega)

/-- A store that does not fault keeps the memory in its canonical form (R40, R42). -/
theorem committed_mem_wf {i : Instr} {s : State} (hmem : s.mem.wf) (hc : faultCondition i s = none) :
    (committed i s).mem.wf := by
  cases i with
  | ldB x =>
    have hle : ¬ 0xFFF < s.i.toNat + 2 := fun h => absurd hc (by simp [faultCondition, h])
    exact wf_memWrite hmem (by show s.i.toNat + 3 ≤ 4096; omega)
  | stRegs x =>
    have hle : ¬ 0xFFF < s.i.toNat + x.val := fun h => absurd hc (by simp [faultCondition, h])
    exact wf_memWrite hmem (by rw [length_regsUpTo]; show s.i.toNat + (x.val + 1) ≤ 4096; omega)
  | _ => exact hmem

/-- The stack after a commit: pushed by `2nnn`, popped by `00EE`, else as it was (R101, R103). -/
theorem committed_stack (i : Instr) (s : State) :
    (committed i s).stack = s.stack ∨ (committed i s).stack = s.stack.dropLast ∨
    ∃ nnn, i = .call nnn ∧ (committed i s).stack = s.stack ++ [BitVec.ofNat 16 s.npc] := by
  cases i with
  | ret => exact .inr (.inl rfl)
  | call nnn => exact .inr (.inr ⟨nnn, rfl, rfl⟩)
  | _ => exact .inl rfl

/-- The stack stays within its capacity, and its entries are return addresses of at most 0x1000 (R15, R101). -/
theorem committed_stack_legal {i : Instr} {s : State} (hpc : s.pc.toNat < 0xFFF) (hdepth : s.stack.length ≤ 16)
    (hentries : ∀ a ∈ s.stack, a.toNat ≤ 0x1000) (hc : faultCondition i s = none) :
    (committed i s).stack.length ≤ 16 ∧ ∀ a ∈ (committed i s).stack, a.toNat ≤ 0x1000 := by
  rcases committed_stack i s with e | e | ⟨nnn, rfl, e⟩ <;> rw [e]
  · exact ⟨hdepth, hentries⟩
  · exact ⟨by rw [List.length_dropLast]; omega, fun a ha => hentries a (List.mem_of_mem_dropLast ha)⟩
  · have hroom : ¬ 16 ≤ s.stack.length := fun h => absurd hc (by simp [faultCondition, h])
    refine ⟨by rw [List.length_append, List.length_singleton]; omega, fun a ha => ?_⟩
    rcases List.mem_append.1 ha with ha | ha
    · exact hentries a ha
    · rw [List.mem_singleton.1 ha]
      exact (State.setPc_pc_le s _).trans (by show s.pc.toNat + 2 ≤ 0x1000; omega)

/-! ### `Cycle` and the other operations -/

/-- A well-formed instruction executed at a legal address by a running machine keeps the invariant. -/
theorem exec_inv {i : Instr} {s t : State} (hs : s.Inv) (hrun : s.run = .running) (hpc : s.pc.toNat < 0xFFF)
    (hwf : i.wf = true) (h : exec i s = .next t) : t.Inv := by
  rcases exec_next h with ⟨hc, rfl⟩ | ⟨c, info, hc, rfl⟩
  · have hfault : s.fault = none := hs.fault_eq_none (by simp [hrun])
    obtain ⟨hdepth, hentries⟩ := committed_stack_legal hpc hs.depth hs.entries hc
    exact .of_no_fault (committed_mem_wf hs.mem hc) (committed_pc_le hwf hpc hs.entries) hdepth hentries
      (committed_run_ne_halted hrun) (by rw [committed_fault, hfault])
  · exact hs.takeFault (legal_of_faultCondition hwf hc)

theorem cycle_inv {s t : State} (hs : s.Inv) (h : cycle s = .next t) : t.Inv := by
  rcases cycle_next h with ⟨-, rfl⟩ | ⟨-, hpc, rfl⟩ | ⟨-, -, hd, rfl⟩ | ⟨i, hrun, hpc, hd, he⟩
  · exact hs
  · exact hs.takeFault (legal_fetchFault hpc hs.pc)
  · exact hs.takeFault (legal_decodeFault s.pc hd)
  · exact exec_inv hs hrun hpc (decodeWord_wf hd) he

theorem resetBlock_inv (s : State) : (resetBlock s).Inv :=
  .of_no_fault Memory.wf_nil (by show 0x200 ≤ 0x10FE; omega) (Nat.zero_le _) (fun _ ha => absurd ha List.not_mem_nil)
    nofun rfl

theorem loadRom_inv {s : State} (hs : s.Inv) (rom : List Byte) : (loadRom rom s).1.Inv := by
  unfold loadRom
  split
  · next hlen =>
    have hr := resetBlock_inv s
    have hmem : (memWrite [] Config.progBase rom).wf :=
      wf_memWrite Memory.wf_nil (by simp only [Config.progBase, Config.progMax, Config.memSize] at *; omega)
    exact .of_no_fault hmem hr.pc hr.depth hr.entries nofun rfl
  · exact hs

theorem keyPress_inv {s : State} (hs : s.Inv) (k : Key) : (keyPress k s).Inv := by
  unfold keyPress
  split
  · next hrun => exact .of_no_fault hs.mem hs.pc hs.depth hs.entries nofun (hs.fault_eq_none (by simp [hrun]))
  · exact hs
  · exact hs

theorem perform_inv {op : HostOp} {s t : State} (hs : s.Inv) (h : perform op s = .next t) : t.Inv := by
  cases op with
  | reset => cases h; exact resetBlock_inv s
  | load rom => cases h; exact (loadRom_inv hs rom).congr rfl rfl rfl rfl rfl
  | cycle => exact cycle_inv hs h
  | tick => cases h; exact hs.congr rfl rfl rfl rfl rfl
  | keyPress k => cases h; exact keyPress_inv hs k

/-- Settles O43: every step keeps the invariant, by the operation the step performs. -/
theorem stepKeepsMachineWellFormed : Obligations.StepKeepsMachineWellFormed := by
  intro s t hs h
  cases hsch : s.schedule with
  | nil => exact cycle_inv hs (step_of_nil hsch ▸ h)
  | cons op rest =>
    have hs' : State.Inv { s with schedule := rest } := hs.congr rfl rfl rfl rfl rfl
    exact perform_inv hs' (step_of_cons hsch ▸ h)

end Machine
end Sys2Proof
end

section
/-! PROOFS. Who writes a register, who reads the free inputs, what changes `TONE`, and the order of the host's schedule. -/

namespace Sys2Proof
namespace Machine

/-! ### Registers and flags (R10, R11) -/

theorem flagByte_eq (c : Bool) : flagByte c = 0 ∨ flagByte c = 1 := by
  cases c
  · exact .inl rfl
  · exact .inr rfl

/-- The six instructions that write a flag leave a flag byte in `VF` (R11, R120). -/
theorem committed_VF_flag {i : Instr} (s : State)
    (hi : (∃ x y, i = .addReg x y ∨ i = .sub x y ∨ i = .shr x y ∨ i = .subn x y ∨ i = .shl x y) ∨
      ∃ x y n, i = .drw x y n) :
    ∃ c, (committed i s).reg VF = flagByte c := by
  rcases hi with ⟨x, y, rfl | rfl | rfl | rfl | rfl⟩ | ⟨x, y, n, rfl⟩ <;>
    exact ⟨_, by simp only [committed, State.advance_reg, State.reg_setResultAndFlag, State.reg_setReg, if_true]; rfl⟩

/-- Settles O46: a fault writes no register, and a commit only those that R10 and R11 name. -/
theorem registersHaveTheirWriters : Obligations.RegistersHaveTheirWriters := by
  refine ⟨fun i s t r h hne => ?_, fun i s t hc h hi => ?_⟩
  · rcases exec_next h with ⟨-, rfl⟩ | ⟨c, info, -, rfl⟩
    · exact not_not.1 (mt (committed_reg_of_not_writesReg s) hne)
    · exact absurd rfl hne
  · obtain ⟨c, hflag⟩ := committed_VF_flag s hi
    rw [exec_of_no_fault hc h, hflag]
    exact flagByte_eq c

/-! ### The free inputs (R27, R28) -/

/-- A change f of the state that neither the check, nor taking a fault, nor the commit of an instruction notices,
passes through the instruction. -/
theorem exec_comm {f : State → State} {i : Instr} {s t : State}
    (hcond : faultCondition i (f s) = faultCondition i s)
    (hfault : ∀ c w info, takeFault c w info (f s) = f (takeFault c w info s))
    (hcommit : committed i (f s) = f (committed i s)) (h : exec i s = .next t) : exec i (f s) = .next (f t) := by
  rw [exec_eq, hcond, hcommit]
  rcases exec_next h with ⟨hc, rfl⟩ | ⟨c, info, hc, rfl⟩
  · rw [hc, commitUnless_none]
  · rw [hc, commitUnless_some, hfault]

/-- The state with other samples of `KEYS`. -/
def State.withKeys (ks : List Keypad) (n : Nat) (s : State) : State := { s with keysIn := ks, keysTaken := n }

/-- The state with other draws of `RND`. -/
def State.withRnd (bs : List Byte) (n : Nat) (s : State) : State := { s with rndIn := bs, rndTaken := n }

theorem faultCondition_withKeys (i : Instr) (s : State) (ks : List Keypad) (n : Nat) :
    faultCondition i (s.withKeys ks n) = faultCondition i s := by
  cases i <;> rfl

theorem faultCondition_withRnd (i : Instr) (s : State) (bs : List Byte) (n : Nat) :
    faultCondition i (s.withRnd bs n) = faultCondition i s := by
  cases i <;> rfl

theorem committed_withKeys {i : Instr} (s : State) (ks : List Keypad) (n : Nat) (hi : ∀ x, i ≠ .skp x ∧ i ≠ .sknp x) :
    committed i (s.withKeys ks n) = (committed i s).withKeys ks n := by
  cases i with
  | skp x => exact absurd rfl (hi x).1
  | sknp x => exact absurd rfl (hi x).2
  | _ => rfl

theorem committed_withRnd {i : Instr} (s : State) (bs : List Byte) (n : Nat) (hi : ∀ x kk, i ≠ .rnd x kk) :
    committed i (s.withRnd bs n) = (committed i s).withRnd bs n := by
  cases i with
  | rnd x kk => exact absurd rfl (hi x kk)
  | _ => rfl

/-- Settles O47: other samples pass through every instruction but `Ex9E` and `ExA1`. -/
theorem keysAreReadOnlyByKeySkips : Obligations.KeysAreReadOnlyByKeySkips := by
  intro i s t ks n hi h
  exact exec_comm (f := State.withKeys ks n) (faultCondition_withKeys i s ks n) (fun _ _ _ => rfl)
    (committed_withKeys s ks n hi) h

/-- Settles O48: other draws pass through every instruction but `Cxkk`. -/
theorem randomIsReadOnlyByRnd : Obligations.RandomIsReadOnlyByRnd := by
  intro i s t bs n hi h
  exact exec_comm (f := State.withRnd bs n) (faultCondition_withRnd i s bs n) (fun _ _ _ => rfl)
    (committed_withRnd s bs n hi) h

/-! ### The host's schedule (R26) -/

theorem exec_schedule {i : Instr} {s t : State} (h : exec i s = .next t) : t.schedule = s.schedule := by
  rcases exec_next h with ⟨-, rfl⟩ | ⟨c, info, -, rfl⟩
  · exact committed_schedule i s
  · rfl

theorem cycle_schedule {s t : State} (h : cycle s = .next t) : t.schedule = s.schedule := by
  rcases cycle_next h with ⟨-, rfl⟩ | ⟨-, -, rfl⟩ | ⟨-, -, -, rfl⟩ | ⟨i, -, -, -, he⟩
  · rfl
  · rfl
  · rfl
  · exact exec_schedule he

theorem loadRom_schedule (rom : List Byte) (s : State) : (loadRom rom s).1.schedule = s.schedule := by
  unfold loadRom
  split <;> rfl

theorem keyPress_schedule (k : Key) (s : State) : (keyPress k s).schedule = s.schedule := by
  unfold keyPress
  split <;> rfl

theorem perform_schedule {op : HostOp} {s t : State} (h : perform op s = .next t) : t.schedule = s.schedule := by
  cases op with
  | reset => cases h; rfl
  | load rom => cases h; exact loadRom_schedule rom s
  | cycle => exact cycle_schedule h
  | tick => cases h; rfl
  | keyPress k => cases h; exact keyPress_schedule k s

/-- Settles O9: a step performs the first operation, and no operation touches the schedule. -/
theorem scheduleIsPerformedInOrder : Obligations.ScheduleIsPerformedInOrder :=
  ⟨fun _ => step_of_nil, fun _ _ _ => step_of_cons, fun _ _ _ => perform_schedule⟩

/-! ### `TONE` (R30) -/

theorem State.tone_iff (s : State) : s.tone = true ↔ 0 < s.st.toNat := decide_eq_true_iff

theorem State.tone_congr {s t : State} (h : t.st = s.st) : t.tone = s.tone := by
  unfold State.tone; rw [h]

theorem State.tone_iff_ne_zero (s : State) : s.tone = true ↔ s.st ≠ 0 := by
  rw [s.tone_iff, Nat.pos_iff_ne_zero, ne_eq, ne_eq, ← BitVec.toNat_inj]
  rfl

theorem State.tone_of_st_zero {s : State} (h : s.st = 0) : s.tone = false := by
  rw [← Bool.not_eq_true, s.tone_iff_ne_zero]
  exact not_not.2 h

/-- A `Tick` turns the tone off where the sound timer is 1 (R30, R214). -/
theorem tick_tone_of_one {s : State} (h : s.st = 1) : (tick s).tone = false :=
  State.tone_of_st_zero (by rw [tick_st, h]; rfl)

/-- From any other value a `Tick` leaves the tone as it is. -/
theorem tick_tone_of_ne_one {s : State} (h : s.st ≠ 1) : (tick s).tone = s.tone := by
  have h1 : s.st.toNat ≠ 1 := fun e => h (BitVec.eq_of_toNat_eq e)
  rw [Bool.eq_iff_iff, State.tone_iff, State.tone_iff, tick_st, countDown_toNat]
  omega

/-- A successful `Load` leaves the sound timer at 0 (R233). -/
theorem loadRom_st_of_fits {rom : List Byte} (s : State) (h : rom.length ≤ 3584) : (loadRom rom s).1.st = 0 := by
  rw [loadRom, if_pos h]
  rfl

/-- A `Load` that fails leaves the sound timer as it is (R234). -/
theorem loadRom_st_of_too_long {rom : List Byte} (s : State) (h : ¬ rom.length ≤ 3584) :
    (loadRom rom s).1.st = s.st := by
  rw [loadRom, if_neg h]

theorem keyPress_st (k : Key) (s : State) : (keyPress k s).st = s.st := by
  unfold keyPress
  split <;> rfl

/-- A `Cycle` changes the sound timer only by an `Fx18`, to the register it names (R88, R187). -/
theorem cycle_st {s t : State} (h : cycle s = .next t) (hne : t.st ≠ s.st) :
    ∃ x, s.run = .running ∧ s.pc.toNat ≤ 0xFFE ∧ decodeWord (fetchWord s.mem s.pc.toNat) = some (.ldStVx x) ∧
      t.st = s.reg x := by
  rcases cycle_next h with ⟨-, rfl⟩ | ⟨-, -, rfl⟩ | ⟨-, -, -, rfl⟩ | ⟨i, hrun, hpc, hd, he⟩
  · exact absurd rfl hne
  · exact absurd rfl hne
  · exact absurd rfl hne
  · rcases exec_next he with ⟨-, rfl⟩ | ⟨c, info, -, rfl⟩
    · rcases committed_st i s with e | ⟨x, rfl, e⟩
      · exact absurd e hne
      · exact ⟨x, hrun, Nat.le_of_lt_succ hpc, hd, e⟩
    · exact absurd rfl hne

/-- A `Cycle` that changes the tone executes an `Fx18`, and the tone is then whether the value written is non-zero. -/
theorem cycle_tone {s t : State} (h : cycle s = .next t) (hne : t.tone ≠ s.tone) :
    ∃ x, s.run = .running ∧ s.pc.toNat ≤ 0xFFE ∧ decodeWord (fetchWord s.mem s.pc.toNat) = some (.ldStVx x) ∧
      t.st = s.reg x ∧ (t.tone = true ↔ s.reg x ≠ 0) := by
  obtain ⟨x, hrun, hpc, hd, hst⟩ := cycle_st h (mt State.tone_congr hne)
  exact ⟨x, hrun, hpc, hd, hst, hst ▸ t.tone_iff_ne_zero⟩

/-- Settles O52: the causes of a change of `TONE`, by the operation the step performs. -/
theorem toneHasItsCauses : Obligations.ToneHasItsCauses := by
  refine ⟨State.tone_iff, fun s t h hne => ?_⟩
  cases hsch : s.schedule with
  | nil =>
    obtain ⟨x, hx⟩ := cycle_tone (step_of_nil hsch ▸ h) hne
    exact .inl ⟨x, .inl rfl, hx⟩
  | cons op rest =>
    rw [step_of_cons hsch] at h
    cases op with
    | cycle =>
      obtain ⟨x, hx⟩ := cycle_tone h hne
      exact .inl ⟨x, .inr ⟨rest, rfl⟩, hx⟩
    | reset =>
      cases h
      exact .inr ⟨State.tone_of_st_zero rfl, .inr (.inl ⟨rest, rfl⟩)⟩
    | load rom =>
      cases h
      by_cases hlen : rom.length ≤ 3584
      · exact .inr ⟨State.tone_of_st_zero (loadRom_st_of_fits _ hlen), .inr (.inr ⟨rom, rest, rfl, hlen⟩)⟩
      · exact absurd (State.tone_congr (loadRom_st_of_too_long { s with schedule := rest } hlen)) hne
    | tick =>
      cases h
      by_cases hst : s.st = 1
      · exact .inr ⟨tick_tone_of_one hst, .inl ⟨rest, rfl, hst⟩⟩
      · exact absurd (tick_tone_of_ne_one (s := { s with schedule := rest }) hst) hne
    | keyPress k =>
      cases h
      exact absurd (State.tone_congr (keyPress_st k { s with schedule := rest })) hne

/-- Settles O54: `TONE` after each of the operations R30 names. -/
theorem toneFollowsSoundTimer : Obligations.ToneFollowsSoundTimer := by
  refine ⟨State.tone_iff, fun x s => ?_, fun s => ?_, fun s => ?_, fun rom s hlen => ?_⟩
  · have hon := State.tone_iff_ne_zero (committed (.ldStVx x) s)
    have hoff := @State.tone_of_st_zero (committed (.ldStVx x) s)
    exact ⟨committed (.ldStVx x) s, exec_eq .., hon.2, hoff⟩
  · exact ⟨tick s, rfl, tick_tone_of_one, tick_tone_of_ne_one⟩
  · exact ⟨resetBlock s, rfl, State.tone_of_st_zero rfl⟩
  · exact ⟨_, rfl, State.tone_of_st_zero (loadRom_st_of_fits s hlen)⟩

end Machine
end Sys2Proof
end

section
/-! PROOFS. Memory: the canonical form holds exactly the bytes that differ from the reset contents (R40, R53), the font
stands in the reset memory (R46), and every byte after an instruction is the stored one or the one that was there
(R56, R144, R145). -/

namespace Sys2Proof
namespace Machine

/-! ### The canonical form (R40, R53) -/

/-- Where addresses rise, every entry is what its address reads as. -/
theorem Memory.read_of_mem {m : Memory} (hm : m.Pairwise fun c d => c.1 < d.1) {c : Host.Cell} (hc : c ∈ m) :
    m.read c.1 = c.2 := by
  induction m with
  | nil => exact absurd hc List.not_mem_nil
  | cons d m ih =>
    obtain ⟨hd, hm⟩ := List.pairwise_cons.1 hm
    rw [Memory.read_cons]
    rcases List.mem_cons.1 hc with rfl | hc
    · exact if_pos rfl
    · rw [if_neg (hd c hc).ne, ih hm hc]

/-- An address that does not read as its reset contents has an entry. -/
theorem Memory.mem_of_read_ne_base {m : Memory} {a : Nat} (h : m.read a ≠ Memory.base a) : (a, m.read a) ∈ m := by
  induction m with
  | nil => exact absurd rfl h
  | cons d m ih =>
    rw [Memory.read_cons] at h ⊢
    split at h
    · next hd => simp [← hd]
    · next hd => simp [hd, ih h]

/-- What a canonical memory lists, every memory lists that reads the same. -/
theorem Memory.subset_of_read_eq {m m' : Memory} (hm : m.wf) (h : ∀ a, a ≤ 0xFFF → m.read a = m'.read a) :
    m ⊆ m' := by
  intro c hc
  obtain ⟨hrising, hcells⟩ := hm
  obtain ⟨hle, hne⟩ := hcells c hc
  have hread : m'.read c.1 = c.2 := (h c.1 hle).symm.trans (Memory.read_of_mem hrising hc)
  have hmem : (c.1, m'.read c.1) ∈ m' := Memory.mem_of_read_ne_base (hread ▸ hne)
  rwa [hread] at hmem

/-- Settles O32: the two list the same cells, and rising addresses leave one order for them. -/
theorem canonicalMemoryIsUnique : Obligations.CanonicalMemoryIsUnique := by
  intro m m' hm hm' h
  have hsub : m ⊆ m' := Memory.subset_of_read_eq hm h
  have hsub' : m' ⊆ m := Memory.subset_of_read_eq hm' fun a ha => (h a ha).symm
  have : Std.Irrefl fun c d : Host.Cell => c.1 < d.1 := ⟨fun c => Nat.lt_irrefl c.1⟩
  have : Std.Antisymm fun c d : Host.Cell => c.1 < d.1 := ⟨fun _ _ hcd hdc => absurd hcd (Nat.lt_asymm hdc)⟩
  exact List.Subset.antisymm_of_pairwise hm.1 hm'.1 hsub hsub'

/-! ### The font in memory (R46, R47) -/

/-- The reset memory holds the font from address 0 on (R46, R231). -/
theorem Memory.base_font {a : Nat} (h : a < 80) : params.font[a]? = some (Memory.base a) := by
  have hlen : params.font.length = 80 := by decide
  rw [Memory.base, if_pos h, List.getD_eq_getElem?_getD, List.getElem?_eq_getElem (hlen ▸ h), Option.getD_some]

/-- `Fx29` writes five times the register: at most 1275, so nothing is lost to the width of `I` (R143). -/
theorem committed_ldF_i (x : RegIdx) (s : State) : (committed (.ldF x) s).i.toNat = 5 * (s.reg x).toNat := by
  have hv := (s.reg x).isLt
  show (BitVec.ofNat 16 ((s.reg x).toNat * 5)).toNat = 5 * (s.reg x).toNat
  rw [BitVec.toNat_ofNat]
  omega

/-- Settles O26: the five bytes of glyph g are those of the font from 5 g on. -/
theorem glyphAddressFindsGlyph : Obligations.GlyphAddressFindsGlyph := by
  intro x g s hg hmem
  have hi : (committed (.ldF x) s).i.toNat = 5 * g.val := (committed_ldF_i x s).trans (by rw [hg])
  refine ⟨committed (.ldF x) s, exec_eq .., hi, fun r hr => ?_⟩
  have hbase : (committed (.ldF x) s).mem.read (5 * g.val + r) = Memory.base (5 * g.val + r) :=
    congrArg (Memory.read · _) hmem
  rw [hi, hbase]
  exact Memory.base_font (by omega)

/-! ### Bytes after an instruction (R56, R144, R145) -/

/-- `Fx33` leaves the three digits at `I` to `I + 2` (R144). -/
theorem committed_ldB_read (x : RegIdx) (s : State) (a : Nat) :
    (committed (.ldB x) s).mem.read a = byteAfter (.ldB x) s a := by
  show (memWrite s.mem s.i.toNat (bcdDigits (s.reg x))).read a = _
  rw [byteAfter]
  split_ifs with h0 h1 h2
  · simp [read_memWrite, bcdDigits, h0]
  · simp [read_memWrite, bcdDigits, h1]
  · simp [read_memWrite, bcdDigits, h2]
  · have hout : ¬ (s.i.toNat ≤ a ∧ a - s.i.toNat < 3) := by omega
    rw [read_memWrite]
    exact dif_neg hout

/-- `Fx55` leaves `V[k]` at `I + k` for k = 0 to x (R145). -/
theorem committed_stRegs_read (x : RegIdx) (s : State) (a : Nat) :
    (committed (.stRegs x) s).mem.read a = byteAfter (.stRegs x) s a := by
  show (memWrite s.mem s.i.toNat (s.regsUpTo x)).read a = _
  have hrange : (s.i.toNat ≤ a ∧ a - s.i.toNat < (s.regsUpTo x).length) ↔
      s.i.toNat ≤ a ∧ a ≤ s.i.toNat + x.val := by
    rw [length_regsUpTo]; omega
  rw [read_memWrite, byteAfter]
  split_ifs with h h' h'
  · exact getElem_regsUpTo ..
  · exact absurd (hrange.1 h) h'
  · exact absurd (hrange.2 h') h
  · rfl

theorem committed_read (i : Instr) (s : State) (a : Nat) : (committed i s).mem.read a = byteAfter i s a := by
  cases i with
  | ldB x => exact committed_ldB_read x s a
  | stRegs x => exact committed_stRegs_read x s a
  | _ => rfl

/-- Settles O55: without a fault the state is the commit, whose bytes are known one by one. -/
theorem instructionLeavesBytes : Obligations.InstructionLeavesBytes := by
  intro i s t hc h a
  rw [exec_of_no_fault hc h]
  exact committed_read i s a

end Machine
end Sys2Proof
end

section
/-! PROOFS. Which instruction reaches which storage (R14, R56, R88, R168). -/

namespace Sys2Proof
namespace Machine

/-! ### The writers of each storage, for a commit -/

theorem committed_mem (i : Instr) (s : State) :
    (committed i s).mem = s.mem ∨ (∃ x, i = .ldB x) ∨ ∃ x, i = .stRegs x := by
  cases i with
  | ldB x => exact .inr (.inl ⟨x, rfl⟩)
  | stRegs x => exact .inr (.inr ⟨x, rfl⟩)
  | _ => exact .inl rfl

theorem committed_fb (i : Instr) (s : State) :
    (committed i s).fb = s.fb ∨ i = .cls ∨ ∃ x y n, i = .drw x y n := by
  cases i with
  | cls => exact .inr (.inl rfl)
  | drw x y n => exact .inr (.inr ⟨x, y, n, rfl⟩)
  | _ => exact .inl rfl

theorem committed_stack_writer (i : Instr) (s : State) :
    (committed i s).stack = s.stack ∨ i = .ret ∨ ∃ nnn, i = .call nnn := by
  cases i with
  | ret => exact .inr (.inl rfl)
  | call nnn => exact .inr (.inr ⟨nnn, rfl⟩)
  | _ => exact .inl rfl

theorem committed_i (i : Instr) (s : State) :
    (committed i s).i = s.i ∨ (∃ nnn, i = .ldI nnn) ∨ (∃ x, i = .addI x) ∨ ∃ x, i = .ldF x := by
  cases i with
  | ldI nnn => exact .inr (.inl ⟨nnn, rfl⟩)
  | addI x => exact .inr (.inr (.inl ⟨x, rfl⟩))
  | ldF x => exact .inr (.inr (.inr ⟨x, rfl⟩))
  | _ => exact .inl rfl

theorem committed_dt (i : Instr) (s : State) : (committed i s).dt = s.dt ∨ ∃ x, i = .ldDtVx x := by
  cases i with
  | ldDtVx x => exact .inr ⟨x, rfl⟩
  | _ => exact .inl rfl

/-- Only `Fx0A` writes `KREG` or, without a fault, `RUN` (R182). -/
theorem committed_kreg_run (i : Instr) (s : State) :
    ((committed i s).kreg = s.kreg ∧ (committed i s).run = s.run) ∨ ∃ x, i = .ldVxK x := by
  cases i with
  | ldVxK x => exact .inr ⟨x, rfl⟩
  | _ => exact .inl ⟨rfl, rfl⟩

@[simp] theorem committed_loadResult (i : Instr) (s : State) : (committed i s).loadResult = s.loadResult := by
  cases i <;> rfl

/-- Settles O45: a commit changes a storage only where the instruction is one of its writers, and a fault only `RUN`
among these. -/
theorem storageHasItsWriters : Obligations.StorageHasItsWriters := by
  intro i s t h
  rcases exec_next h with ⟨-, rfl⟩ | ⟨c, info, -, rfl⟩
  · have hst := (committed_st i s).imp_right (Exists.imp fun _ => And.left)
    have hwait := committed_kreg_run i s
    exact ⟨(committed_mem i s).resolve_left, (committed_fb i s).resolve_left,
      (committed_stack_writer i s).resolve_left, (committed_i i s).resolve_left, (committed_dt i s).resolve_left, hst.resolve_left,
      fun hne => hwait.resolve_left fun e => hne e.1, fun hne => .inl (hwait.resolve_left fun e => hne e.2),
      committed_schedule i s, committed_loadResult i s⟩
  · exact ⟨(absurd rfl ·), (absurd rfl ·), (absurd rfl ·), (absurd rfl ·), (absurd rfl ·), (absurd rfl ·),
      (absurd rfl ·), fun _ => .inr rfl, rfl, rfl⟩

end Machine
end Sys2Proof
end

section
/-! PROOFS. Self-modifying code: a `Cycle` by what the bytes at `PC` hold (R81, R83), and the `Cycle` after a store
(R52). -/

namespace Sys2Proof
namespace Machine

/-! ### A `Cycle` inside memory (R81, R83) -/

section cycle
variable {s : State} (hrun : s.run = .running) (hpc : s.pc.toNat < 0xFFF)
include hrun hpc

/-- Inside memory a `Cycle` of a running machine is what the fetched word decodes to. -/
theorem cycle_of_decoded {i : Instr} (hd : decodeWord (fetchWord s.mem s.pc.toNat) = some i) :
    cycle s = exec i s := by
  have hfetch : accessFault s.pc.toNat 2 = none := accessFault_eq_none.2 (.inr (by omega))
  simp only [cycle, hrun, runCycle, hfetch, hd]

theorem cycle_of_illegal (hd : decodeWord (fetchWord s.mem s.pc.toNat) = none) :
    cycle s = .next (haltedWith ⟨.decodeFault, s.pc, some (fetchWord s.mem s.pc.toNat),
      (fetchWord s.mem s.pc.toNat).toNat⟩ s) := by
  have hfetch : accessFault s.pc.toNat 2 = none := accessFault_eq_none.2 (.inr (by omega))
  simp only [cycle, hrun, runCycle, hfetch, hd]
  rfl

end cycle

/-! ### The `Cycle` after a store (R52) -/

theorem decodeWord_encode_store {store : Instr} {x : RegIdx} (h : store = .stRegs x ∨ store = .ldB x) :
    decodeWord (encode store) = some store := by
  rcases h with rfl | rfl <;> simp [decodeWord, encode, decodeFamilyF]

/-- The word at an address after a commit. -/
theorem committed_fetchWord (i : Instr) (s : State) (a : Nat) :
    fetchWord (committed i s).mem a = wordOfBytes (byteAfter i s a) (byteAfter i s (a + 1)) := by
  rw [fetchWord, committed_read, committed_read]

theorem committed_store {store : Instr} {x : RegIdx} (s : State) (h : store = .stRegs x ∨ store = .ldB x) :
    (committed store s).run = s.run ∧ (committed store s).pc = BitVec.ofNat 16 (s.pc.toNat + 2) := by
  rcases h with rfl | rfl <;> exact ⟨rfl, rfl⟩

/-- Settles O31: the store commits, and the next `Cycle` fetches the word of its commit. -/
theorem storeSeenByNextFetch : Obligations.StoreSeenByNextFetch := by
  intro s store x w hsch hrun hpc hstore hc hfetch hw
  have hd : decodeWord (fetchWord s.mem s.pc.toNat) = some store :=
    hfetch ▸ decodeWord_encode_store hstore
  have hstep : step s = .next (committed store s) := by
    rw [step_of_nil hsch, cycle_of_decoded hrun (by omega) hd, exec_eq, hc, commitUnless_none]
  obtain ⟨htrun, htpc⟩ := committed_store s hstore
  rw [hrun] at htrun
  have hnext : (committed store s).pc.toNat = s.pc.toNat + 2 := by
    rw [htpc, BitVec.toNat_ofNat]; omega
  have hlt : (committed store s).pc.toNat < 0xFFF := by omega
  have hword : fetchWord (committed store s).mem (committed store s).pc.toNat = w := by
    rw [hnext, committed_fetchWord, hw]
  have htstep : step (committed store s) = cycle (committed store s) :=
    step_of_nil ((committed_schedule store s).trans hsch)
  refine ⟨committed store s, hstep, hnext, fun i hi => ?_, fun hi => ?_⟩
  · rw [htstep, cycle_of_decoded htrun hlt (hword ▸ hi)]
  · rw [htstep, cycle_of_illegal htrun hlt (hword ▸ hi), hword]

end Machine
end Sys2Proof
end

section
/-! PROOFS. The round trip between instructions and words, the decoder against the opcode map and its list of illegal
words (R60 to R70, R74, R201). -/

namespace Sys2Proof

/-! ### A word is each of its formats (R61, R62) -/

section
variable {w : Word} {op n : Nat} {kk : Byte}

theorem formatA_of_fields (hop : fieldOp w = op) : formatA op (fieldNNN w) = w := by
  apply BitVec.eq_of_toNat_eq
  rw [formatA_toNat, ← hop, fieldOp_eq, fieldNNN_eq]
  omega

theorem formatXK_of_fields (hop : fieldOp w = op) (hkk : fieldKK w = kk) : formatXK op (fieldX w) kk = w := by
  apply BitVec.eq_of_toNat_eq
  rw [formatXK_toNat, ← hop, ← hkk, fieldOp_eq, fieldX_val, fieldKK_toNat]
  omega

theorem formatXY_of_fields (hop : fieldOp w = op) (hn : fieldN w = n) :
    formatXY op (fieldX w) (fieldY w) n = w := by
  apply BitVec.eq_of_toNat_eq
  rw [formatXY_toNat, ← hop, ← hn, fieldOp_eq, fieldX_val, fieldY_val, fieldN_eq]
  omega

end

/-! ### The word of a decoded instruction (R64 to R67) -/

section
variable {w : Word} {i : Instr}

theorem encode_of_decodeFamily0 (h : decodeFamily0 w = some i) : encode i = w := by
  unfold decodeFamily0 at h
  split at h
  case isTrue hw => cases h; exact hw.symm
  case isFalse =>
    split at h <;> cases h
    next hw => exact hw.symm

theorem encode_of_decodeFamily8 (hop : fieldOp w = 0x8) (h : decodeFamily8 w = some i) : encode i = w := by
  unfold decodeFamily8 at h
  split at h <;> cases h <;> exact formatXY_of_fields hop ‹_›

theorem encode_of_decodeFamilyE (hop : fieldOp w = 0xE) (h : decodeFamilyE w = some i) : encode i = w := by
  unfold decodeFamilyE at h
  split at h <;> cases h <;> exact formatXK_of_fields hop (BitVec.eq_of_toNat_eq ‹_›)

theorem encode_of_decodeFamilyF (hop : fieldOp w = 0xF) (h : decodeFamilyF w = some i) : encode i = w := by
  unfold decodeFamilyF at h
  split at h <;> cases h <;> exact formatXK_of_fields hop (BitVec.eq_of_toNat_eq ‹_›)

/-- Where the low nibble has to be 0 (families 5 and 9), it is. -/
theorem encode_of_decodeZeroN {op : Nat} {f : RegIdx → RegIdx → Instr}
    (hf : ∀ x y, encode (f x y) = formatXY op x y 0) (hop : fieldOp w = op)
    (h : (if fieldN w = 0 then some (f (fieldX w) (fieldY w)) else none) = some i) : encode i = w := by
  split at h <;> cases h
  next hn => rw [hf, formatXY_of_fields hop hn]

/-- The encoder gives back every bit of a word that decodes. -/
theorem encode_of_decodeWord (h : decodeWord w = some i) : encode i = w := by
  unfold decodeWord at h
  split at h
  case h_1 => exact encode_of_decodeFamily0 h
  case h_6 hop => exact encode_of_decodeZeroN (fun _ _ => rfl) hop h
  case h_9 hop => exact encode_of_decodeFamily8 hop h
  case h_10 hop => exact encode_of_decodeZeroN (fun _ _ => rfl) hop h
  case h_14 hop => cases h; exact formatXY_of_fields hop rfl
  case h_15 hop => exact encode_of_decodeFamilyE hop h
  case h_16 hop => exact encode_of_decodeFamilyF hop h
  case h_17 => cases h
  case h_2 hop | h_3 hop | h_11 hop | h_12 hop => cases h; exact formatA_of_fields hop
  case h_4 hop | h_5 hop | h_7 hop | h_8 hop | h_13 hop => cases h; exact formatXK_of_fields hop rfl

end

/-! ### The instruction of an encoded word (R62, R68) -/

theorem decodeWord_encode {i : Instr} (h : i.wf = true) : decodeWord (encode i) = some i := by
  cases i with
  | cls | ret => rfl
  | jp nnn | call nnn | ldI nnn | jpV0 nnn =>
    have hnnn : nnn < 4096 := of_decide_eq_true h
    simp [encode, decodeWord, Nat.mod_eq_of_lt hnnn]
  | drw x y n =>
    have hn : n < 16 := of_decide_eq_true h
    simp [encode, decodeWord, Nat.mod_eq_of_lt hn]
  | seImm x kk | sneImm x kk | ldImm x kk | addImm x kk | rnd x kk => simp [encode, decodeWord]
  | seReg x y | sneReg x y => simp [encode, decodeWord]
  | ldReg x y | orReg x y | andReg x y | xorReg x y | addReg x y | sub x y | shr x y | subn x y | shl x y =>
    simp [encode, decodeWord, decodeFamily8]
  | skp x | sknp x => simp [encode, decodeWord, decodeFamilyE]
  | ldVxDt x | ldVxK x | ldDtVx x | ldStVx x | addI x | ldF x | ldB x | stRegs x | ldRegs x =>
    simp [encode, decodeWord, decodeFamilyF]

theorem decodeBytes_wordBytes {w : Word} {i : Instr} (h : decodeWord w = some i) (rest : List Byte) :
    decodeBytes (wordBytes w ++ rest) = .instr i rest := by
  simp [wordBytes, decodeBytes, h]

/-- Settles O1: the fields of a format are the operands it was built from. -/
theorem decodeInvertsEncode : Obligations.DecodeInvertsEncode := fun _ h =>
  ⟨decodeWord_encode h, decodeBytes_wordBytes (decodeWord_encode h)⟩

/-- Settles O2: the format of its own fields is the word. -/
theorem encodeInvertsDecode : Obligations.EncodeInvertsDecode := fun _ _ h =>
  ⟨decodeWord_wf h, encode_of_decodeWord h⟩

/-! ### The opcode map (R66, R68) -/

/-- The word of every instruction has the fixed digits of its row. -/
theorem encode_matches_row (i : Instr) : Laws.EncodeMatchesRow.Statement i := by
  open Laws.EncodeMatchesRow in
  cases i
  exacts [cls, ret, jp _, call _, seImm _ _, sneImm _ _, seReg _ _, ldImm _ _, addImm _ _, ldReg _ _, orReg _ _,
    andReg _ _, xorReg _ _, addReg _ _, sub _ _, shr _ _, subn _ _, shl _ _, sneReg _ _, ldI _, jpV0 _, rnd _ _,
    drw _ _ _, skp _, sknp _, ldVxDt _, ldVxK _, ldDtVx _, ldStVx _, addI _, ldF _, ldB _, stRegs _, ldRegs _]

theorem exists_row_of_decodeWord {w : Word} {i : Instr} (h : decodeWord w = some i) :
    ∃ r ∈ opcodeRows, r.mnemonic = i.mnemonic ∧ w &&& r.mask = r.pattern :=
  encode_of_decodeWord h ▸ encode_matches_row i

/-- Where two masks both keep a bit of a word, they keep the same bit. -/
theorem and_masks_agree (w m m' : Word) : m &&& m' &&& (w &&& m ^^^ w &&& m') = 0 := by
  ext k
  cases hm : m[k] <;> cases hm' : m'[k] <;> simp [hm, hm']

/-- Two rows that match one word are the same row. -/
theorem row_unique {w : Word} {r q : OpcodeRow} (hr : r ∈ opcodeRows) (hq : q ∈ opcodeRows)
    (hwr : w &&& r.mask = r.pattern) (hwq : w &&& q.mask = q.pattern) : r = q := by
  by_contra hne
  have hsymm : Std.Symm fun a b : OpcodeRow => a.mask &&& b.mask &&& (a.pattern ^^^ b.pattern) ≠ 0 :=
    ⟨fun a b hab => by rwa [BitVec.and_comm b.mask, BitVec.xor_comm b.pattern]⟩
  apply opcodeRows_exclusive.forall hr hq hne
  rw [← hwr, ← hwq, and_masks_agree]

/-- Whether a word is illegal depends on its family and on the digits that select within it, and on nothing else. -/
theorem illegalWord_congr {w p : Word} (hop : fieldOp w = fieldOp p) (h0 : fieldOp p = 0x0 → w = p)
    (hn : fieldOp p ∈ [0x5, 0x8, 0x9] → fieldN w = fieldN p)
    (hkk : fieldOp p ∈ [0xE, 0xF] → fieldKK w = fieldKK p) :
    Machine.illegalWord w ↔ Machine.illegalWord p := by
  unfold Machine.illegalWord
  simp only [← fieldOp_eq, ← fieldN_eq, ← fieldKK_toNat, hop]
  refine or_congr (and_congr_right fun e => ?_) <| or_congr (and_congr_right fun e => ?_) <|
    or_congr (and_congr_right fun e => ?_) <| or_congr (and_congr_right fun e => ?_) <|
    or_congr (and_congr_right fun e => ?_) (and_congr_right fun e => ?_)
  case refine_1 => rw [h0 e]
  case refine_2 | refine_3 | refine_4 => rw [hn (by simp [e])]
  case refine_5 | refine_6 => rw [hkk (by simp [e])]

section
variable {w m p : Word} (h : w &&& m = p)
include h

theorem fieldOp_of_and (hm : m.extractLsb' 12 4 = BitVec.allOnes 4) : fieldOp w = fieldOp p := by
  rw [← h, fieldOp, fieldOp, BitVec.extractLsb'_and, hm, BitVec.and_allOnes]

theorem fieldN_of_and (hm : m.extractLsb' 0 4 = BitVec.allOnes 4) : fieldN w = fieldN p := by
  rw [← h, fieldN, fieldN, BitVec.extractLsb'_and, hm, BitVec.and_allOnes]

theorem fieldKK_of_and (hm : fieldKK m = BitVec.allOnes 8) : fieldKK w = fieldKK p := by
  rw [fieldKK] at hm
  rw [← h, fieldKK, fieldKK, BitVec.extractLsb'_and, hm, BitVec.and_allOnes]

end

/-- Each row fixes the digits that select an instruction, to values that do select one. -/
theorem opcodeRows_select : ∀ r ∈ opcodeRows,
    r.mask.extractLsb' 12 4 = BitVec.allOnes 4 ∧ (fieldOp r.pattern = 0x0 → r.mask = BitVec.allOnes 16) ∧
    (fieldOp r.pattern ∈ [0x5, 0x8, 0x9] → r.mask.extractLsb' 0 4 = BitVec.allOnes 4) ∧
    (fieldOp r.pattern ∈ [0xE, 0xF] → fieldKK r.mask = BitVec.allOnes 8) ∧ decodeWord r.pattern ≠ none := by
  decide

theorem decodeWord_ne_none_of_row {w : Word} {r : OpcodeRow} (hr : r ∈ opcodeRows) (h : w &&& r.mask = r.pattern) :
    decodeWord w ≠ none := by
  obtain ⟨hop, h0, hn, hkk, hp⟩ := opcodeRows_select r hr
  have hcongr := illegalWord_congr (fieldOp_of_and h hop) (fun e => by rw [← h, h0 e, BitVec.and_allOnes])
    (fun e => fieldN_of_and h (hn e)) (fun e => fieldKK_of_and h (hkk e))
  rwa [Ne, decodeWord_eq_none, hcongr, ← decodeWord_eq_none]

/-- Settles O3: the word of a decoded instruction matches that instruction's row, no second row matches it, and a word
that matches a row decodes. -/
theorem opcodeMapSelectsInstruction : Obligations.OpcodeMapSelectsInstruction := by
  refine ⟨fun w r hr hwr => ?_, fun w hno => ?_⟩
  · obtain ⟨i, hi⟩ := Option.ne_none_iff_exists'.1 (decodeWord_ne_none_of_row hr hwr)
    obtain ⟨q, hq, hname, hwq⟩ := exists_row_of_decodeWord hi
    exact ⟨i, hi, row_unique hr hq hwr hwq ▸ hname.symm⟩
  · refine Option.eq_none_iff_forall_ne_some.2 fun i hi => ?_
    obtain ⟨q, hq, -, hwq⟩ := exists_row_of_decodeWord hi
    exact hno q hq hwq

/-- Settles O4: the decoder refuses the words of the list, and a `Cycle` in memory takes the decoder's refusal. -/
theorem illegalWordTakesDecodeFault : Obligations.IllegalWordTakesDecodeFault :=
  ⟨fun _ => decodeWord_eq_none, fun _ hrun hpc hw =>
    Machine.cycle_of_illegal hrun (Nat.lt_succ_of_le hpc) (decodeWord_eq_none.2 hw)⟩

/-- Settles O5: closed bytes, so the decoder evaluates. -/
theorem sampleWordsDecode : Obligations.SampleWordsDecode := by
  unfold Obligations.SampleWordsDecode
  decide

end Sys2Proof
end

section
/-! PROOFS. The `Cycle`: what it fetches, the instruction it runs, the faults of its check phase, and the run states in
which it does nothing (R80 to R86, R90, R206, R208). -/

namespace Sys2Proof
namespace Machine

/-! ### Run states in which nothing happens (R80, R208) -/

theorem cycle_of_not_running {s : State} (h : s.run ≠ .running) : cycle s = .next s := by
  unfold cycle
  split
  · next hrun => exact absurd hrun h
  · rfl
  · rfl

/-- A state that a step leaves as it is stays through any number of steps. -/
theorem run_of_step_fixed {M : Host.Core} {s : M.State} (h : M.step s = .next s) (n : Nat) : M.run n s = .next s := by
  induction n with
  | zero => rfl
  | succ n ih => rw [Host.Core.run, h]; exact ih

/-- Settles O12: one `Cycle` leaves the machine as it is, so every number of them does. -/
theorem cyclesFreezeWhileWaitingOrHalted : Obligations.CyclesFreezeWhileWaitingOrHalted := by
  intro s n hsch hrun
  have hne : s.run ≠ .running := by rcases hrun with h | h <;> simp [h]
  exact run_of_step_fixed (M := Sys2Proof.core) ((step_of_nil hsch).trans (cycle_of_not_running hne)) n

/-! ### The check phase (R84, R85, R206) -/

/-- `RUN` after a commit: `Fx0A` begins a wait, every other instruction leaves it (R85, R182). -/
theorem committed_run (i : Instr) (s : State) :
    (∃ x, i = .ldVxK x) ∧ (committed i s).run = .awaitingKey ∨
    (∀ x, i ≠ .ldVxK x) ∧ (committed i s).run = s.run := by
  cases i with
  | ldVxK x => exact .inl ⟨⟨x, rfl⟩, rfl⟩
  | _ => exact .inr ⟨nofun, rfl⟩

/-- Settles O42: an instruction is its commit behind the condition R84 gives for it. -/
theorem checkPhaseDecidesFault : Obligations.CheckPhaseDecidesFault := by
  refine fun i s => ⟨fun c info hc => ?_, fun hc => ?_⟩ <;> rw [exec_eq, hc]
  · rw [commitUnless_some]
    rfl
  · exact ⟨committed i s, commitUnless_none .., committed_fault i s, committed_run i s⟩

/-! ### Fetch and decode (R48, R81, R83) -/

theorem wordOfBytes_toNat (hi lo : Byte) : (wordOfBytes hi lo).toNat = hi.toNat * 256 + lo.toNat := by
  rw [wordOfBytes, BitVec.toNat_append, ← Nat.shiftLeft_add_eq_or_of_lt lo.isLt, Nat.shiftLeft_eq]

/-- The fetched word is the big-endian word of the two bytes (R48). -/
theorem fetchWord_eq {m : Memory} {a : Nat} {w : Word}
    (h : w.toNat = (m.read a).toNat * 256 + (m.read (a + 1)).toNat) : fetchWord m a = w :=
  BitVec.eq_of_toNat_eq ((wordOfBytes_toNat ..).trans h.symm)

/-- The decoder accepts two bytes of memory where it accepts the word fetched from them. -/
theorem decodeWord_of_decodeBytes {m : Memory} {a : Nat} {i : Instr}
    (h : decodeBytes (memRead m a 2) = .instr i []) : decodeWord (fetchWord m a) = some i := by
  simp only [memRead, decodeBytes] at h
  split at h
  · next hd => rw [fetchWord, hd, (Decoded.instr.inj h).1]
  · cases h

theorem cycle_of_fetchFault {s : State} (hrun : s.run = .running) (hpc : 0xFFF ≤ s.pc.toNat) :
    cycle s = .next (haltedWith ⟨.addressFault, s.pc, none, s.pc.toNat + 1⟩ s) := by
  have hfetch : accessFault s.pc.toNat 2 = some (s.pc.toNat + 1) :=
    accessFault_eq_some.2 ⟨by decide, by omega, by omega⟩
  simp only [cycle, hrun, runCycle, hfetch]
  rfl

/-- Settles O10: the fetched word decodes to what the bytes do, and the schedule does not enter the fetch. -/
theorem stepRunsDecodedInstruction : Obligations.StepRunsDecodedInstruction := by
  intro s i hrun hpc hd
  have hlt : s.pc.toNat < 0xFFF := Nat.lt_succ_of_le hpc
  have hword := decodeWord_of_decodeBytes hd
  refine ⟨fun hsch => ?_, fun rest hsch => ?_⟩
  · exact (step_of_nil hsch).trans (cycle_of_decoded hrun hlt hword)
  · exact (step_of_cons hsch).trans (cycle_of_decoded (s := { s with schedule := rest }) hrun hlt hword)

/-- Settles O11: by the range check of the fetch, then by what the fetched word decodes to. -/
theorem fetchReadsBigEndianWord : Obligations.FetchReadsBigEndianWord := by
  refine fun s hrun => ⟨cycle_of_fetchFault hrun, fun hpc w hw => ?_⟩
  obtain rfl := fetchWord_eq hw
  exact ⟨fun i => cycle_of_decoded hrun hpc, cycle_of_illegal hrun hpc⟩

end Machine
end Sys2Proof
end

section
/-! PROOFS. Control flow: the jumps, the call and the return, and the comparison skips (R89, R101 to R108). -/

namespace Sys2Proof
namespace Machine

/-! ### An instruction that raises no fault (R84, R85) -/

theorem exec_eq_committed {i : Instr} {s : State} (hc : faultCondition i s = none) :
    exec i s = .next (committed i s) := by
  rw [exec_eq, hc, commitUnless_none]

/-! ### `PC` as a number (R12) -/

/-- A natural number that fits 16 bits reaches `PC` whole. -/
theorem State.setPc_pc_toNat (s : State) {a : Nat} (h : a < 2 ^ 16) : (s.setPc a).pc.toNat = a :=
  (BitVec.toNat_ofNat ..).trans (Nat.mod_eq_of_lt h)

/-- Settles O13: the target, at most 0xFFF + 0xFF, fits the 16 bits of `PC`. -/
theorem jumpsReplacePc : Obligations.JumpsReplacePc := by
  intro nnn s hnnn
  have hv := (s.reg 0).isLt
  exact ⟨⟨s.setPc nnn, rfl, s.setPc_pc_toNat (by omega), rfl⟩,
    s.setPc (nnn + (s.reg 0).toNat), rfl, s.setPc_pc_toNat (by omega), rfl⟩

/-! ### Call and return (R101, R103) -/

/-- The condition under which `2nnn` completes (R84, log 6). -/
theorem faultCondition_call_of_room {s : State} (nnn : Nat) (h : s.stack.length < 16) :
    faultCondition (.call nnn) s = none :=
  if_neg (Nat.not_le.2 h)

/-- Settles O14: below 16 entries the call commits, and from 16 on its check phase refuses it. -/
theorem callPushesReturnAddress : Obligations.CallPushesReturnAddress := by
  refine fun nnn s hnnn => ⟨fun hroom => ?_, fun hfull => ?_⟩
  · exact ⟨committed (.call nnn) s, exec_eq_committed (faultCondition_call_of_room nnn hroom),
      State.setPc_pc_toNat _ (by omega), rfl, rfl⟩
  · exact (checkPhaseDecidesFault (.call nnn) s).1 _ _ (if_pos hfull)

/-- Settles O15: the return takes the last entry where there is one, and its check phase refuses the empty stack. -/
theorem returnPopsStack : Obligations.ReturnPopsStack := by
  refine ⟨fun s below a hs => ?_, fun s hs => ?_⟩
  · have hc : faultCondition .ret s = none := if_neg (by simp [hs])
    rw [exec_eq_committed hc]
    simp [committed, State.setPc, State.pop, State.top, hs]
  · exact (checkPhaseDecidesFault .ret s).1 _ _ (if_pos hs)

/-- Settles O16: the entry the call pushed, the address after it, is the one the return takes. -/
theorem returnUndoesCall : Obligations.ReturnUndoesCall := by
  intro nnn s t u hpc hroom hcall hu
  obtain rfl : t = committed (.call nnn) s := exec_of_no_fault (faultCondition_call_of_room nnn hroom) hcall
  have hstack : u.stack = s.stack ++ [BitVec.ofNat 16 (s.pc.toNat + 2)] := hu
  exact ⟨_, returnPopsStack.1 u _ _ hstack, s.setPc_pc_toNat (by omega), rfl⟩

/-! ### The comparison skips (R89, R104 to R107) -/

/-- An instruction that skips where p holds advances `PC` by 4 there and by 2 elsewhere, and changes nothing else. -/
theorem exec_skip {i : Instr} {s : State} {p : Prop} [Decidable p] (hpc : s.pc.toNat ≤ 0xFFE)
    (h : exec i s = .next (s.skipIf (decide p))) :
    ∃ t, exec i s = .next t ∧ t = { s with pc := t.pc } ∧
      (p → t.pc.toNat = s.pc.toNat + 4) ∧ (¬ p → t.pc.toNat = s.pc.toNat + 2) := by
  refine ⟨_, h, rfl, fun hp => ?_, fun hp => ?_⟩
  · rw [State.skipIf_eq, if_pos (decide_eq_true hp), s.setPc_pc_toNat (by omega)]
  · rw [State.skipIf_eq, if_neg (by simp [hp]), s.setPc_pc_toNat (by omega)]

/-- Settles O17: each of the four is a skip on its comparison. -/
theorem skipsOnComparison : Obligations.SkipsOnComparison := by
  intro x y kk s hpc
  refine ⟨exec_skip hpc rfl, ?_, exec_skip hpc rfl, ?_⟩
  · simpa only [ne_eq, not_not] using exec_skip (p := s.reg x ≠ kk) (i := .sneImm x kk) hpc rfl
  · simpa only [ne_eq, not_not] using exec_skip (p := s.reg x ≠ s.reg y) (i := .sneReg x y) hpc rfl

end Machine
end Sys2Proof
end

section
/-! PROOFS. Registers and arithmetic: the register writes, with and without a flag, and their results as numbers
(R120 to R132). -/

namespace Sys2Proof
namespace Machine

/-! ### A register write and the default advance (R120) -/

theorem State.advance_setReg_self (s : State) (x : RegIdx) (b : Byte) : (s.setReg x b).advance.reg x = b := by
  rw [State.advance_reg, State.reg_setReg, if_pos rfl]

/-- A result that no flag follows changes one register and `PC`, and nothing else. -/
theorem State.advance_setReg_frame (s : State) (x : RegIdx) (b : Byte) :
    (∀ r, r ≠ x → (s.setReg x b).advance.reg r = s.reg r) ∧
      (s.setReg x b).advance.pc = BitVec.ofNat 16 (s.pc.toNat + 2) ∧
      (s.setReg x b).advance = { s with v := (s.setReg x b).advance.v, pc := (s.setReg x b).advance.pc } := by
  refine ⟨fun r hr => ?_, rfl, rfl⟩
  rw [State.advance_reg, State.reg_setReg, if_neg hr.symm]

/-- An instruction that writes a result to `V[x]` and then a flag leaves the flag in `VF`, the result in `V[x]` unless
that is `VF`, and changes nothing else but `PC`. -/
theorem exec_setResultAndFlag {i : Instr} {s : State} {x : RegIdx} {r f : Byte} {n m : Nat}
    (h : exec i s = .next (s.setResultAndFlag x r f).advance) (hr : r.toNat = n) (hf : f.toNat = m) :
    ∃ t, exec i s = .next t ∧ (x ≠ VF → (t.reg x).toNat = n) ∧ (t.reg VF).toNat = m ∧
      (∀ q, q ≠ x → q ≠ VF → t.reg q = s.reg q) ∧
      t.pc = BitVec.ofNat 16 (s.pc.toNat + 2) ∧ t = { s with v := t.v, pc := t.pc } := by
  refine ⟨_, h, fun hx => ?_, ?_, fun q hqx hqf => ?_, rfl, rfl⟩
  · rw [State.advance_reg, State.reg_setResultAndFlag, if_neg hx.symm, if_pos rfl, hr]
  · rw [State.advance_reg, State.reg_setResultAndFlag, if_pos rfl, hf]
  · rw [State.advance_reg, State.reg_setResultAndFlag, if_neg hqf.symm, if_neg hqx.symm]

/-! ### Results and flags as numbers (R127 to R131) -/

theorem carryFlag_toNat (vx vy : Byte) :
    (carryFlag vx vy).toNat = if 255 < vx.toNat + vy.toNat then 1 else 0 := by
  simp only [carryFlag, flagByte_toNat, decide_eq_true_eq]

theorem greaterFlag_toNat (a b : Byte) : (greaterFlag a b).toNat = if b.toNat < a.toNat then 1 else 0 := by
  simp only [greaterFlag, flagByte_toNat, decide_eq_true_eq]

/-- A flag that is bit k of a byte. -/
theorem flagByte_getLsbD_toNat (b : Byte) (k : Nat) : (flagByte (b.getLsbD k)).toNat = b.toNat / 2 ^ k % 2 := by
  rw [flagByte_toNat, BitVec.getLsbD, ← Nat.toNat_testBit]
  exact (Bool.cond_eq_ite ..).symm

theorem lowBitFlag_toNat (b : Byte) : (lowBitFlag b).toNat = b.toNat % 2 := by
  rw [lowBitFlag, flagByte_getLsbD_toNat, Nat.pow_zero, Nat.div_one]

theorem highBitFlag_toNat (b : Byte) : (highBitFlag b).toNat = b.toNat / 128 :=
  (flagByte_getLsbD_toNat b 7).trans (Nat.mod_eq_of_lt (Nat.div_lt_of_lt_mul b.isLt))

theorem byte_toNat_sub (a b : Byte) : (a - b).toNat = (a.toNat + 256 - b.toNat) % 256 := by
  have hb := b.isLt
  rw [BitVec.toNat_sub]
  congr 1
  omega

theorem byte_toNat_shiftRight_one (b : Byte) : (b >>> 1).toNat = b.toNat / 2 := by
  rw [BitVec.toNat_ushiftRight, Nat.shiftRight_eq_div_pow, Nat.pow_one]

theorem byte_toNat_shiftLeft_one (b : Byte) : (b <<< 1).toNat = b.toNat * 2 % 256 := by
  rw [BitVec.toNat_shiftLeft, Nat.shiftLeft_eq, Nat.pow_one]

/-! ### Results without a flag (R121 to R126, R132) -/

/-- Settles O18: each is one register write. -/
theorem loadImmediateAndCopy : Obligations.LoadImmediateAndCopy := fun x y kk s =>
  ⟨⟨_, rfl, s.advance_setReg_self x kk, s.advance_setReg_frame x kk⟩,
    _, rfl, s.advance_setReg_self x (s.reg y), s.advance_setReg_frame x (s.reg y)⟩

/-- Settles O19: the byte written is the 8-bit sum. -/
theorem addImmediateWraps : Obligations.AddImmediateWraps := by
  refine fun x kk s => ⟨_, rfl, ?_, s.advance_setReg_frame x _⟩
  rw [State.advance_setReg_self, BitVec.toNat_add]

/-- Settles O20: the byte written is the bitwise OR, AND and exclusive OR. -/
theorem logicCombinesBits : Obligations.LogicCombinesBits := by
  refine fun x y s => ⟨⟨_, rfl, fun k => ?_, s.advance_setReg_frame x _⟩,
    ⟨_, rfl, fun k => ?_, s.advance_setReg_frame x _⟩, _, rfl, fun k => ?_, s.advance_setReg_frame x _⟩
  · rw [State.advance_setReg_self, BitVec.getLsbD_or]
  · rw [State.advance_setReg_self, BitVec.getLsbD_and]
  · rw [State.advance_setReg_self, BitVec.getLsbD_xor]

/-- Settles O24: one register write after the draw, and the mask clears each bit that is 0 in `kk`. -/
theorem randomIsMaskedDraw : Obligations.RandomIsMaskedDraw := by
  intro x kk s
  have hx := s.takeRnd.advance_setReg_self x (s.rnd &&& kk)
  refine ⟨_, rfl, hx, fun b rest hb => ?_, fun k hk => ?_, s.takeRnd.advance_setReg_frame x _⟩
  · rw [hx, State.rnd_of_laid_out hb]
  · rw [hx, BitVec.getLsbD_and, hk, Bool.and_false]

/-! ### Results with a flag (R127 to R131) -/

/-- Settles O21: the 8-bit sum of the two registers alone, then its carry out of bit 7. -/
theorem addWritesCarry : Obligations.AddWritesCarry := fun _ _ _ =>
  exec_setResultAndFlag rfl (BitVec.toNat_add ..) (carryFlag_toNat ..)

/-- Settles O22: the two differ in which operand is the minuend. -/
theorem subtractWritesGreater : Obligations.SubtractWritesGreater := fun _ _ _ =>
  ⟨exec_setResultAndFlag rfl (byte_toNat_sub ..) (greaterFlag_toNat ..),
    exec_setResultAndFlag rfl (byte_toNat_sub ..) (greaterFlag_toNat ..)⟩

/-- Settles O23: a shift by one place halves or doubles, and bit 0 or bit 7 of the old value goes to `VF`. -/
theorem shiftsWriteBitOut : Obligations.ShiftsWriteBitOut := fun _ _ _ =>
  ⟨exec_setResultAndFlag rfl (byte_toNat_shiftRight_one _) (lowBitFlag_toNat _),
    exec_setResultAndFlag rfl (byte_toNat_shiftLeft_one _) (highBitFlag_toNat _)⟩

end Machine
end Sys2Proof
end

section
/-! PROOFS. The index register, stores and loads: the writes of `I`, and the three accesses at `I`, each with the
bytes or registers it reaches and the fault above 0xFFF (R140 to R147). -/

namespace Sys2Proof
namespace Machine

/-! ### The index register (R141 to R143) -/

/-- An instruction that writes `I` leaves the number modulo 65536 there and changes nothing else but `PC`. -/
theorem exec_setI {i : Instr} {s : State} {a n : Nat} (h : exec i s = .next (s.setI a).advance) (hn : a % 65536 = n) :
    ∃ t, exec i s = .next t ∧ t.i.toNat = n ∧
      t.pc = BitVec.ofNat 16 (s.pc.toNat + 2) ∧ t = { s with i := t.i, pc := t.pc } :=
  ⟨_, h, (BitVec.toNat_ofNat ..).trans hn, rfl, rfl⟩

/-- Settles O25: a 12-bit address and five times a byte fit the 16 bits of `I`; the sum is taken modulo 65536. -/
theorem indexWrites : Obligations.IndexWrites := by
  intro nnn x s
  have hv := (s.reg x).isLt
  exact ⟨fun hnnn => exec_setI rfl (Nat.mod_eq_of_lt (by omega)), exec_setI rfl rfl,
    exec_setI (a := (s.reg x).toNat * 5) rfl (Nat.mod_eq_of_lt (by omega))⟩

/-! ### An access at `I` (R42, R84) -/

section access
variable {i : Instr} {s : State} {a : Nat}
  (hc : faultCondition i s = if 0xFFF < a then some (.addressFault, a) else none)
include hc

/-- An instruction whose highest address lies in memory commits. -/
theorem exec_of_access_inside (h : a ≤ 0xFFF) : exec i s = .next (committed i s) :=
  exec_eq_committed (hc.trans (if_neg (Nat.not_lt.2 h)))

/-- An instruction whose highest address lies above memory commits nothing. -/
theorem exec_of_access_above (h : 0xFFF < a) :
    exec i s = .next (haltedWith ⟨.addressFault, s.pc, some (encode i), a⟩ s) :=
  (checkPhaseDecidesFault i s).1 _ _ (hc.trans (if_pos h))

end access

/-! ### The stores (R144, R145) -/

/-- `Fx33` leaves the hundreds at `I`, the tens at `I + 1` and the ones at `I + 2` (R144). -/
theorem committed_ldB_read_digits (x : RegIdx) (s : State) :
    (committed (.ldB x) s).mem.read (s.ea 0) = BitVec.ofNat 8 ((s.reg x).toNat / 100) ∧
      (committed (.ldB x) s).mem.read (s.ea 1) = BitVec.ofNat 8 ((s.reg x).toNat / 10 % 10) ∧
      (committed (.ldB x) s).mem.read (s.ea 2) = BitVec.ofNat 8 ((s.reg x).toNat % 10) := by
  simp [committed_ldB_read, byteAfter, State.ea]

theorem byte_ofNat_toNat {n : Nat} (h : n < 256) : (BitVec.ofNat 8 n).toNat = n :=
  (BitVec.toNat_ofNat ..).trans (Nat.mod_eq_of_lt h)

/-- Settles O27: each of the three bytes is a digit, which fits a byte, and the other bytes stay. -/
theorem decimalStore : Obligations.DecimalStore := by
  refine fun x s => ⟨fun hin => ?_, exec_of_access_above rfl⟩
  have hv := (s.reg x).isLt
  obtain ⟨hundreds, tens, ones⟩ := committed_ldB_read_digits x s
  refine ⟨committed (.ldB x) s, exec_of_access_inside rfl hin, ?_, ?_, ?_, fun a ha => ?_, rfl, rfl⟩
  · rw [hundreds, byte_ofNat_toNat (by omega)]
  · rw [tens, byte_ofNat_toNat (by omega)]
  · rw [ones, byte_ofNat_toNat (by omega)]
  · simp only [State.ea] at ha
    rw [committed_ldB_read, byteAfter, if_neg (by omega), if_neg (by omega), if_neg (by omega)]

/-- `Fx55` leaves `V[k]` at `I + k` (R145). -/
theorem committed_stRegs_read_stored (s : State) {x k : RegIdx} (h : k.val ≤ x.val) :
    (committed (.stRegs x) s).mem.read (s.i.toNat + k.val) = s.reg k := by
  simp [committed_stRegs_read, byteAfter, h]

/-- Settles O28: the bytes from `I` to `I + x` are the registers in order, and the other bytes stay. -/
theorem registerStore : Obligations.RegisterStore := by
  refine fun x s => ⟨fun hin => ?_, exec_of_access_above rfl⟩
  refine ⟨committed (.stRegs x) s, exec_of_access_inside rfl hin, fun k => committed_stRegs_read_stored s,
    fun a ha => ?_, rfl, rfl⟩
  rw [committed_stRegs_read]
  exact dif_neg (by simp only [State.ea] at ha; omega)

/-! ### The load (R146, R147) -/

/-- `Fx65` leaves in `V[k]` the byte at `I + k` (R146). -/
theorem committed_ldRegs_reg_loaded (s : State) {x k : RegIdx} (h : k.val ≤ x.val) :
    (committed (.ldRegs x) s).reg k = s.mem.read (s.i.toNat + k.val) := by
  have hk : k.val < x.val + 1 := Nat.lt_succ_of_le h
  simp [committed, State.reg, State.advance, State.ea, getElem_setRegsFrom, getElem_memRead, hk]

/-- Settles O29: the registers up to x receive the bytes in order, and those above x are no destination. -/
theorem registerLoad : Obligations.RegisterLoad := by
  refine fun x s => ⟨fun hin => ?_, exec_of_access_above rfl⟩
  exact ⟨committed (.ldRegs x) s, exec_of_access_inside rfl hin, fun k => committed_ldRegs_reg_loaded s,
    fun k hk => committed_reg_of_not_writesReg s (Nat.not_le.2 hk), rfl, rfl⟩

/-- Settles O30: the load reads at the same `I` the bytes that the store left there. -/
theorem storeLoadRoundTrip : Obligations.StoreLoadRoundTrip := by
  intro x s t u hin hstore hi hmem
  obtain rfl : t = committed (.stRegs x) s :=
    Host.Outcome.next.inj (hstore.symm.trans (exec_of_access_inside rfl hin))
  have hui : u.i = s.i := hi
  obtain ⟨w, hw, hload, -⟩ := (registerLoad x u).1 (hui ▸ hin)
  refine ⟨w, hw, fun k hk => ?_⟩
  calc w.reg k = u.mem.read (s.i.toNat + k.val) := hui ▸ hload k hk
    _ = (committed (.stRegs x) s).mem.read (s.i.toNat + k.val) := hmem k.val hk
    _ = s.reg k := committed_stRegs_read_stored s hk

end Machine
end Sys2Proof
end

section
/-! PROOFS. The display: the clear, and the draw of a wrapped sprite with its collision flag and its fault above 0xFFF
(R163 to R167). -/

namespace Sys2Proof
namespace Machine

/-- Settles O33: the blank framebuffer has every pixel 0, and the clear writes `FB` and `PC` only. -/
theorem clearBlanksDisplay : Obligations.ClearBlanksDisplay := fun s =>
  ⟨committed .cls s, exec_eq_committed rfl, Framebuffer.pixel_blank, rfl, rfl⟩

/-! ### The check phase of a draw (R42, R84) -/

theorem exec_drw_of_inside {n : Nat} {s : State} (x y : RegIdx) (h : n = 0 ∨ s.i.toNat + n - 1 ≤ 0xFFF) :
    exec (.drw x y n) s = .next (committed (.drw x y n) s) :=
  exec_eq_committed (if_neg (by omega))

/-! ### Where a sprite has a 1 bit (R164, R166) -/

/-- The sprite at `I`, drawn at (`V[x]`, `V[y]`), has a 1 bit on the pixel (qx, qy). -/
def State.spriteCovers (s : State) (x y : RegIdx) (n : Nat) (qx : Fin 64) (qy : Fin 32) : Prop :=
  ∃ r c, r < n ∧ c < 8 ∧ qx.val = ((s.reg x).toNat + c) % 64 ∧ qy.val = ((s.reg y).toNat + r) % 32 ∧
    (s.mem.read (s.i.toNat + r)).getLsbD (7 - c) = true

/-- The bytes a draw reads are the rows of the sprite at `I`. -/
theorem spriteBit_memRead_iff (s : State) (x y : RegIdx) (n : Nat) (qx : Fin 64) (qy : Fin 32) :
    spriteBit (s.reg x).toNat (s.reg y).toNat (memRead s.mem (s.ea 0) n) qx qy ↔ s.spriteCovers x y n qx qy := by
  simp only [spriteBit, State.spriteCovers, getElem_memRead, length_memRead, exists_prop, State.ea, Nat.add_zero,
    wrapCol, wrapRow, Fin.ext_iff, eq_comm]

/-- Row and column of a sprite are determined by the pixel they wrap to, so that one bit decides (R166). -/
theorem spriteCovers_iff_bit {s : State} {x y : RegIdx} {n r c : Nat} {qx : Fin 64} {qy : Fin 32} (hn : n < 16)
    (hr : r < n) (hc : c < 8) (hx : qx.val = ((s.reg x).toNat + c) % 64) (hy : qy.val = ((s.reg y).toNat + r) % 32) :
    s.spriteCovers x y n qx qy ↔ (s.mem.read (s.i.toNat + r)).getLsbD (7 - c) = true := by
  refine ⟨fun ⟨r', c', hr', hc', hx', hy', hbit⟩ => ?_, fun hbit => ⟨r, c, hr, hc, hx, hy, hbit⟩⟩
  obtain rfl : r' = r := by omega
  obtain rfl : c' = c := by omega
  exact hbit

/-- Two states with the same sprite at the same place cover the same pixels. -/
theorem spriteCovers_congr {s u : State} {x y : RegIdx} (hmem : u.mem = s.mem) (hi : u.i = s.i)
    (hx : u.reg x = s.reg x) (hy : u.reg y = s.reg y) (n : Nat) (qx : Fin 64) (qy : Fin 32) :
    u.spriteCovers x y n qx qy ↔ s.spriteCovers x y n qx qy := by
  simp only [State.spriteCovers, hmem, hi, hx, hy]

/-! ### What a draw leaves (R164) -/

/-- A sprite is no taller than the framebuffer, so none of its rows meets another (R166). -/
theorem length_sprite_le {n : Nat} (hn : n < 16) (s : State) : (memRead s.mem (s.ea 0) n).length ≤ 32 := by
  rw [length_memRead]; omega

/-- A draw is the XOR of a pixel with the bit that says whether the sprite covers it. -/
theorem committed_drw_pixel {n : Nat} {s : State} {x y : RegIdx} {qx : Fin 64} {qy : Fin 32} {bit : Bool} (hn : n < 16)
    (hbit : s.spriteCovers x y n qx qy ↔ bit = true) :
    (committed (.drw x y n) s).fb.pixel qx qy = (s.fb.pixel qx qy ^^ bit) := by
  classical
  have hdecide : decide (spriteBit (s.reg x).toNat (s.reg y).toNat (memRead s.mem (s.ea 0) n) qx qy) = bit :=
    Bool.eq_iff_iff.2 (decide_eq_true_iff.trans ((spriteBit_memRead_iff ..).trans hbit))
  exact hdecide ▸ drawRows_pixel _ _ _ (length_sprite_le hn s) (s.fb, false) qx qy

theorem committed_drw_VF (x y : RegIdx) (n : Nat) (s : State) :
    (committed (.drw x y n) s).reg VF = flagByte (s.drawn x y n).2 :=
  State.advance_setReg_self ..

theorem flagByte_eq_one_iff (c : Bool) : flagByte c = 1 ↔ c = true := by
  cases c <;> decide

/-- A draw reports a collision exactly where a 1 bit of its sprite lies on a pixel that was on. -/
theorem committed_drw_collision {n : Nat} (hn : n < 16) (x y : RegIdx) (s : State) :
    (committed (.drw x y n) s).reg VF = 1 ↔ ∃ (r c : Nat) (qx : Fin 64) (qy : Fin 32), r < n ∧ c < 8 ∧
      qx.val = ((s.reg x).toNat + c) % 64 ∧ qy.val = ((s.reg y).toNat + r) % 32 ∧
      s.fb.pixel qx qy = true ∧ (s.mem.read (s.i.toNat + r)).getLsbD (7 - c) = true := by
  rw [committed_drw_VF, flagByte_eq_one_iff, State.drawn, drawRows_hit _ _ _ (length_sprite_le hn s)]
  simp only [spriteBit_memRead_iff, Bool.false_eq_true, false_or]
  constructor
  · rintro ⟨qx, qy, ⟨r, c, hr, hc, hx, hy, hbit⟩, hon⟩
    exact ⟨r, c, qx, qy, hr, hc, hx, hy, hon, hbit⟩
  · rintro ⟨r, c, qx, qy, hr, hc, hx, hy, hon, hbit⟩
    exact ⟨qx, qy, ⟨r, c, hr, hc, hx, hy, hbit⟩, hon⟩

/-- Settles O34: a pixel the sprite reaches is inverted where its bit is 1, and one it does not reach is not covered. -/
theorem drawXorsSprite : Obligations.DrawXorsSprite := by
  intro x y n s hn
  refine ⟨fun hin => ⟨committed (.drw x y n) s, exec_drw_of_inside x y hin, ?_, ?_, committed_drw_collision hn x y s,
    ?_, fun q hq => committed_reg_of_not_writesReg s hq, rfl, rfl⟩, fun hn1 habove => ?_⟩
  · exact fun r c qx qy hr hc hx hy => committed_drw_pixel hn (spriteCovers_iff_bit hn hr hc hx hy)
  · intro qx qy hmiss
    have huncovered : ¬ s.spriteCovers x y n qx qy := fun ⟨r, c, hr, hc, hx, hy, _⟩ => hmiss r c hr hc ⟨hx, hy⟩
    rw [committed_drw_pixel hn (iff_of_false huncovered Bool.false_ne_true), Bool.xor_false]
  · rw [committed_drw_VF]
    exact flagByte_eq _
  · exact (checkPhaseDecidesFault _ s).1 _ _ (if_pos ⟨hn1, habove⟩)

/-- Settles O35: the sprite of no rows is `MemRead` of no bytes, whatever the memory, and leaves the collision at 0. -/
theorem drawOfNoRows : Obligations.DrawOfNoRows := fun x y s =>
  ⟨committed (.drw x y 0) s, exec_drw_of_inside x y (.inl rfl), committed_drw_VF x y 0 s,
    fun _ hq => committed_reg_of_not_writesReg s hq, rfl, fun _ => exec_drw_of_inside x y (.inl rfl), rfl⟩

/-- Settles O36: both draws cover the same pixels, and a pixel inverted twice is as it was (R167 (a)). -/
theorem drawTwiceRestores : Obligations.DrawTwiceRestores := by
  intro x y n s t u hn hin hdraw hfb hmem hi hx hy
  obtain rfl : t = committed (.drw x y n) s := Host.Outcome.next.inj (hdraw.symm.trans (exec_drw_of_inside x y hin))
  refine ⟨committed (.drw x y n) u, exec_drw_of_inside x y (hi ▸ hin), Framebuffer.ext_pixel fun qx qy => ?_, ?_⟩
  · obtain ⟨bit, hbit⟩ : ∃ bit : Bool, s.spriteCovers x y n qx qy ↔ bit = true := by
      classical exact ⟨decide _, decide_eq_true_iff.symm⟩
    rw [committed_drw_pixel hn ((spriteCovers_congr hmem hi hx hy n qx qy).trans hbit), hfb,
      committed_drw_pixel hn hbit, Bool.xor_assoc, Bool.xor_self, Bool.xor_false]
  · simpa only [hfb, hmem, hi, hx, hy] using committed_drw_collision hn x y u

end Machine
end Sys2Proof
end

section
/-! PROOFS. The keypad and the timers: the key skips and their sample, the wait of `Fx0A` and what ends it, and the
timer moves (R180 to R187, R221). -/

namespace Sys2Proof
namespace Machine

/-! ### `KeyPress` by run state (R183, R184) -/

theorem keyPress_of_awaiting {s : State} (k : Key) (h : s.run = .awaitingKey) :
    keyPress k s = { s.setReg s.kreg (BitVec.ofNat 8 k.val) with run := .running } := by
  rw [keyPress, h]

theorem keyPress_of_not_awaiting {s : State} (k : Key) (h : s.run ≠ .awaitingKey) : keyPress k s = s := by
  unfold keyPress
  split
  · next hwait => exact absurd hwait h
  · rfl
  · rfl

/-- Settles O39: outside a wait a `KeyPress` is ignored. -/
theorem keyPressOutsideWaitIsIgnored : Obligations.KeyPressOutsideWaitIsIgnored := by
  intro k s hrun
  have hne : s.run ≠ .awaitingKey := by rcases hrun with h | h <;> simp [h]
  exact congrArg Host.Outcome.next (keyPress_of_not_awaiting k hne)

/-! ### The wait of `Fx0A` (R182, R183) -/

/-- A `KeyPress` during a wait writes the key code to the register of the wait, resumes, and changes nothing else. -/
theorem keyPress_ends_wait {s : State} (k : Key) (h : s.run = .awaitingKey) :
    ((keyPress k s).reg s.kreg).toNat = k.val ∧ (∀ r, r ≠ s.kreg → (keyPress k s).reg r = s.reg r) ∧
      (keyPress k s).run = .running ∧ keyPress k s = { s with v := (keyPress k s).v, run := (keyPress k s).run } := by
  have hreg (r : RegIdx) : (keyPress k s).reg r = if s.kreg = r then BitVec.ofNat 8 k.val else s.reg r := by
    rw [keyPress_of_awaiting k h]
    exact State.reg_setReg ..
  have hk := k.isLt
  refine ⟨?_, fun r hr => (hreg r).trans (if_neg hr.symm), ?_, ?_⟩
  · rw [hreg, if_pos rfl, byte_ofNat_toNat (by omega)]
  · rw [keyPress_of_awaiting k h]
  · rw [keyPress_of_awaiting k h]
    rfl

/-- Settles O38: the commit of `Fx0A` begins the wait, `Cycle`s freeze in it, and a `KeyPress` ends it. -/
theorem keyWaitLastsUntilKeyPress : Obligations.KeyWaitLastsUntilKeyPress := by
  intro x s n k
  have hrun : (committed (.ldVxK x) s).run = .awaitingKey := rfl
  exact ⟨committed (.ldVxK x) s, exec_eq_committed rfl, rfl, hrun, decide_eq_true hrun, rfl, rfl,
    fun hsch => cyclesFreezeWhileWaitingOrHalted _ n hsch (.inl hrun), _, rfl, keyPress_ends_wait k hrun⟩

/-! ### What ends a run state other than `RUNNING` (R184, R208, R221) -/

theorem loadRom_of_too_long {rom : List Byte} (s : State) (h : ¬ rom.length ≤ 3584) :
    loadRom rom s = (s, .loadError) :=
  if_neg h

/-- While the machine is not running, any operation but a `KeyPress`, a `Reset` and a successful `Load` changes at most
the timers and the answer recorded for a `Load` (log 4). -/
theorem perform_of_not_running {op : HostOp} {s t : State} (hrun : s.run ≠ .running) (h : perform op s = .next t) :
    t = { s with dt := t.dt, st := t.st, loadResult := t.loadResult } ∨ (∃ k, op = .keyPress k) ∨ op = .reset ∨
      ∃ rom, op = .load rom ∧ rom.length ≤ 3584 := by
  cases op with
  | reset => exact .inr (.inr (.inl rfl))
  | load rom =>
    by_cases hlen : rom.length ≤ 3584
    · exact .inr (.inr (.inr ⟨rom, rfl, hlen⟩))
    · cases h
      rw [loadRom_of_too_long s hlen]
      exact .inl rfl
  | cycle =>
    cases (cycle_of_not_running hrun).symm.trans h
    exact .inl rfl
  | tick => cases h; exact .inl rfl
  | keyPress k => exact .inr (.inl ⟨k, rfl⟩)

/-- The same for a step, which also takes the operation off the schedule (log 3). -/
theorem step_of_not_running {s t : State} (hrun : s.run ≠ .running) (h : step s = .next t) :
    t = { s with dt := t.dt, st := t.st, schedule := t.schedule, loadResult := t.loadResult } ∨
    (∃ k rest, s.schedule = .keyPress k :: rest) ∨
    (∃ rest, s.schedule = .reset :: rest) ∨ ∃ rom rest, s.schedule = .load rom :: rest ∧ rom.length ≤ 3584 := by
  cases hsch : s.schedule with
  | nil =>
    cases (cycle_of_not_running hrun).symm.trans (step_of_nil hsch ▸ h)
    exact .inl rfl
  | cons op rest =>
    rw [step_of_cons hsch] at h
    rcases perform_of_not_running (s := { s with schedule := rest }) hrun h with ht | ⟨k, rfl⟩ | rfl | ⟨rom, rfl, hlen⟩
    · have hrest : t.schedule = rest := perform_schedule h
      exact .inl (by rw [hrest]; exact ht)
    · exact .inr (.inl ⟨k, rest, rfl⟩)
    · exact .inr (.inr (.inl ⟨rest, rfl⟩))
    · exact .inr (.inr (.inr ⟨rom, rest, rfl, hlen⟩))

/-- Settles O51: a machine that waits is not running. -/
theorem waitIsLeftOnlyByKeyPressResetOrLoad : Obligations.WaitIsLeftOnlyByKeyPressResetOrLoad :=
  fun _ _ hwait => step_of_not_running (by simp [hwait])

/-! ### The key skips (R180, R181) -/

/-- Where `V[x]` is a key code, the level read is that key's. -/
theorem State.keyDown_of_key {s : State} {x : RegIdx} {k : Key} (h : (s.reg x).toNat = k.val) :
    s.keyDown x = s.keys[k.val] := by
  simp [State.keyDown, h]

/-- An instruction that takes a sample and skips on c advances `PC` by 4 or by 2, and changes nothing else. -/
theorem exec_keySkip {i : Instr} {s : State} {c : Bool} (hpc : s.pc.toNat ≤ 0xFFE)
    (h : exec i s = .next (s.takeKeys.skipIf c)) :
    ∃ t, exec i s = .next t ∧ (c = true → t.pc.toNat = s.pc.toNat + 4) ∧ (c = false → t.pc.toNat = s.pc.toNat + 2) ∧
      t = { s with pc := t.pc, keysIn := s.keysIn.tail, keysTaken := s.keysTaken + 1 } := by
  refine ⟨_, h, ?_, ?_, rfl⟩ <;> rintro rfl
  · exact s.takeKeys.setPc_pc_toNat (a := s.pc.toNat + 4) (by omega)
  · exact s.takeKeys.setPc_pc_toNat (a := s.pc.toNat + 2) (by omega)

/-- Settles O37: the check phase passes a key code, and the two skip on the key's level and on its inverse; a value
above 15 it refuses. -/
theorem keySkips : Obligations.KeySkips := by
  refine fun x s hpc => ⟨fun k hk => ?_, fun habove => ?_⟩
  · have hlt := k.isLt
    have hcode : ¬ 0x0F < (s.reg x).toNat := by omega
    have hskp := exec_keySkip hpc (exec_eq_committed (i := .skp x) (if_neg hcode))
    have hsknp := exec_keySkip hpc (exec_eq_committed (i := .sknp x) (if_neg hcode))
    rw [State.keyDown_of_key hk] at hskp hsknp
    exact ⟨hskp, by simpa only [Bool.not_eq_true', Bool.not_eq_false'] using hsknp⟩
  · exact ⟨(checkPhaseDecidesFault (.skp x) s).1 _ _ (if_pos habove),
      (checkPhaseDecidesFault (.sknp x) s).1 _ _ (if_pos habove)⟩

/-! ### The timer moves (R185 to R187) -/

/-- Settles O40: a register write and two writes of a timer; the tone is read off the sound timer. -/
theorem timerMoves : Obligations.TimerMoves := fun x s =>
  ⟨⟨committed (.ldVxDt x) s, exec_eq_committed rfl, s.advance_setReg_self x s.dt, s.advance_setReg_frame x s.dt⟩,
    ⟨committed (.ldDtVx x) s, exec_eq_committed rfl, rfl, rfl, rfl⟩,
    committed (.ldStVx x) s, exec_eq_committed rfl, rfl, State.tone_iff_ne_zero _, rfl, rfl⟩

end Machine
end Sys2Proof
end

section
/-! PROOFS. The timers, and the step of the whole machine: any number of `Tick`s, a next state for every state, and what
leaves `HALTED` (R206, R208, R209, R214, R215). -/

namespace Sys2Proof
namespace Machine

/-! ### Any number of `Tick`s (R214, R215) -/

theorem countDown_iterate_toNat (n : Nat) (b : Byte) : (countDown^[n] b).toNat = b.toNat - n := by
  induction n with
  | zero => rfl
  | succ n ih => rw [Function.iterate_succ_apply', countDown_toNat, ih, Nat.sub_sub]

/-- n `Tick`s count each timer down n times, and change nothing else. -/
theorem tick_iterate (n : Nat) (s : State) :
    tick^[n] s = { s with dt := countDown^[n] s.dt, st := countDown^[n] s.st } := by
  induction n generalizing s with
  | zero => rfl
  | succ n ih =>
    rw [Function.iterate_succ_apply, ih]
    rfl

/-- Settles O41: n `Tick`s are n count-downs of each timer, and those take n off its value. -/
theorem ticksCountDownToZero : Obligations.TicksCountDownToZero := by
  refine ⟨fun _ => rfl, fun n s => ?_⟩
  rw [tick_iterate]
  exact ⟨countDown_iterate_toNat n s.dt, countDown_iterate_toNat n s.st, rfl⟩

/-! ### Every state steps (R206, R208, log 5) -/

/-- An instruction commits or takes its fault, and each is a next state. -/
theorem exists_exec_next (i : Instr) (s : State) : ∃ t, exec i s = .next t := by
  cases hc : faultCondition i s with
  | none => exact ⟨_, exec_eq_committed hc⟩
  | some p => exact ⟨_, (checkPhaseDecidesFault i s).1 p.1 p.2 hc⟩

theorem exists_cycle_next (s : State) : ∃ t, cycle s = .next t := by
  by_cases hrun : s.run = .running
  · rcases Nat.lt_or_ge s.pc.toNat 0xFFF with hlt | hge
    · cases hd : decodeWord (fetchWord s.mem s.pc.toNat) with
      | none => exact ⟨_, cycle_of_illegal hrun hlt hd⟩
      | some i => exact cycle_of_decoded hrun hlt hd ▸ exists_exec_next i s
    · exact ⟨_, cycle_of_fetchFault hrun hge⟩
  · exact ⟨s, cycle_of_not_running hrun⟩

theorem exists_perform_next (op : HostOp) (s : State) : ∃ t, perform op s = .next t := by
  cases op with
  | cycle => exact exists_cycle_next s
  | _ => exact ⟨_, rfl⟩

/-- Settles O49: a step is a `Cycle` or the first operation of the schedule, and each has a next state. -/
theorem everyStateSteps : Obligations.EveryStateSteps := by
  intro s
  cases hsch : s.schedule with
  | nil => exact step_of_nil hsch ▸ exists_cycle_next s
  | cons op rest => exact step_of_cons hsch ▸ exists_perform_next op { s with schedule := rest }

/-! ### What leaves `HALTED` (R208, R209) -/

/-- Settles O50: a halted machine is not running, and it ignores a `KeyPress`, which ends a wait only. -/
theorem haltedIsLeftOnlyByResetOrLoad : Obligations.HaltedIsLeftOnlyByResetOrLoad := by
  intro s t hhalt h
  rcases step_of_not_running (by simp [hhalt]) h with hframe | ⟨k, rest, hsch⟩ | hleft
  · exact .inl hframe
  · have hign : keyPress k { s with schedule := rest } = { s with schedule := rest } :=
      keyPress_of_not_awaiting k (by simp [hhalt])
    have ht : keyPress k { s with schedule := rest } = t := Host.Outcome.next.inj ((step_of_cons hsch).symm.trans h)
    obtain rfl := hign.symm.trans ht
    exact .inl rfl
  · exact .inr hleft

end Machine
end Sys2Proof
end

section
/-! PROOFS. `Reset` and `Load`, and the stable situation of a finished program (R102, R222, R230 to R234, R245). -/

namespace Sys2Proof
namespace Machine

/-! ### Memory under a written run, and its reset contents (R41, R45, R231) -/

/-- `MemWrite` leaves the j-th byte at the j-th address from its first (R41). -/
theorem read_memWrite_inside (m : Memory) (addr : Nat) {bs : List Byte} {j : Nat} (h : j < bs.length) :
    (memWrite m addr bs).read (addr + j) = bs[j] := by
  simp [read_memWrite, h]

/-- `MemWrite` leaves the bytes below and above the run it writes (R41). -/
theorem read_memWrite_outside (m : Memory) {addr a : Nat} {bs : List Byte} (h : a < addr ∨ addr + bs.length ≤ a) :
    (memWrite m addr bs).read a = m.read a := by
  rw [read_memWrite]
  exact dif_neg (by omega)

/-- Above the font the reset contents are 0 (R231). -/
theorem Memory.base_above_font {a : Nat} (h : 80 ≤ a) : Memory.base a = 0 := if_neg (Nat.not_lt.2 h)

/-- A memory with its reset contents below 80 holds the font there (R46). -/
theorem memRead_font {m : Memory} (h : ∀ a, a < 80 → m.read a = Memory.base a) : memRead m 0 80 = params.font := by
  have hlen : params.font.length = 80 := by decide
  refine List.ext_getElem (by rw [length_memRead, hlen]) fun a ha hfont => ?_
  have ha80 : a < 80 := hlen ▸ hfont
  rw [getElem_memRead, Nat.zero_add, h a ha80]
  exact ((List.getElem_eq_iff hfont).2 (Memory.base_font ha80)).symm

/-! ### `Reset` (R230, R231) -/

theorem resetBlock_reg (s : State) (r : RegIdx) : (resetBlock s).reg r = 0 := Vector.getElem_replicate r.isLt

/-- At the entry point the reset memory holds the word 0x0000 (R231). -/
theorem resetBlock_fetchWord (s : State) : fetchWord (resetBlock s).mem (resetBlock s).pc.toNat = 0x0000 := by
  show fetchWord [] 0x200 = 0x0000
  decide

/-- The `Cycle` after a `Reset` fetches 0x0000, which is illegal (R70, R231). -/
theorem cycle_resetBlock (s : State) :
    cycle (resetBlock s) = .next (haltedWith ⟨.decodeFault, 0x200, some 0x0000, 0x0000⟩ (resetBlock s)) := by
  have hpc : (resetBlock s).pc.toNat < 0xFFF := by show 0x200 < 0xFFF; decide
  have hd : decodeWord (fetchWord (resetBlock s).mem (resetBlock s).pc.toNat) = none := by
    rw [resetBlock_fetchWord]; decide
  rw [cycle_of_illegal rfl hpc hd, resetBlock_fetchWord]
  rfl

/-- Settles O6: the state after `Reset` is written out, and its memory reads as the reset contents everywhere. -/
theorem resetGivesResetState : Obligations.ResetGivesResetState := fun s =>
  ⟨resetBlock s, rfl, resetBlock_reg s, rfl, rfl, rfl, rfl, rfl, Framebuffer.pixel_blank, rfl, rfl, rfl,
    memRead_font fun _ _ => rfl, fun _ ha _ => Memory.base_above_font ha, rfl, rfl, rfl, Framebuffer.pixel_blank,
    cycle_resetBlock s⟩

/-- Settles O44: the state after reset is what `Reset` makes of itself, and `Reset` establishes the invariant. -/
theorem resetIsWellFormed : Obligations.ResetIsWellFormed := resetBlock_inv State.reset

/-! ### `Load` (R222, R233, R234) -/

theorem loadRom_of_fits {rom : List Byte} (s : State) (h : rom.length ≤ 3584) :
    loadRom rom s = ({ resetBlock s with mem := memWrite [] 0x200 rom }, .ok) :=
  if_pos h

/-- Settles O7: the image is one written run over the reset memory, from 0x200 on and so above the font. -/
theorem loadPlacesProgram : Obligations.LoadPlacesProgram := by
  intro rom s hlen
  have hout : ∀ a, a < 0x200 ∨ 0x200 + rom.length ≤ a → (memWrite [] 0x200 rom).read a = Memory.base a :=
    fun _ => read_memWrite_outside []
  refine ⟨_, loadRom_of_fits s hlen, fun j => read_memWrite_inside [] 0x200,
    memRead_font fun a ha => hout a (.inl (by omega)), fun a ha _ hfree => ?_, ?_⟩
  · exact (hout a hfree).trans (Memory.base_above_font ha)
  · exact ⟨rfl, rfl, rfl, rfl, rfl, rfl, rfl, rfl, rfl, rfl, rfl⟩

/-- Settles O8: the failing branch of `Load` returns the state it was given. -/
theorem loadTooLongChangesNothing : Obligations.LoadTooLongChangesNothing := by
  intro rom s hlen
  have hlong : ¬ rom.length ≤ 3584 := Nat.not_le.2 hlen
  refine ⟨loadRom_of_too_long s hlong, fun rest hsch => ?_⟩
  rw [step_of_cons hsch, perform, loadRom_of_too_long _ hlong]

/-! ### The finished program (R102, R245 (c)) -/

/-- A finished program fetches a jump whose target is `PC` itself, which leaves every piece of state (R102). -/
theorem cycle_of_finished {s : State} (h : s.finished) : cycle s = .next s := by
  obtain ⟨hrun, hpc, hword⟩ := h
  have hwf : (Instr.jp s.pc.toNat).wf = true := decide_eq_true (by omega)
  have hd : decodeWord (fetchWord s.mem s.pc.toNat) = some (.jp s.pc.toNat) := hword ▸ decodeWord_encode hwf
  have hself : s.setPc s.pc.toNat = s := by rw [State.setPc, BitVec.ofNat_toNat, BitVec.setWidth_eq]
  calc cycle s = exec (.jp s.pc.toNat) s := cycle_of_decoded hrun hpc hd
    _ = .next (s.setPc s.pc.toNat) := exec_eq_committed rfl
    _ = .next s := congrArg _ hself

/-- Settles O53: one `Cycle` leaves a finished machine as it is, so every number of them does, and it is running. -/
theorem selfJumpIsFixedPoint : Obligations.SelfJumpIsFixedPoint := by
  intro s n hfin hsch
  have hstep : step s = .next s := (step_of_nil hsch).trans (cycle_of_finished hfin)
  obtain ⟨hrun, -, -⟩ := hfin
  exact ⟨run_of_step_fixed (M := Sys2Proof.core) hstep n, by simp [hrun]⟩

end Machine
end Sys2Proof
end
